-- ==== Sys2Proof/Word.lean ====
section
/-! DEFINITION. The word types of the block: everything the spec treats as bits is a bit vector of the
width 00_scope.md R6 and 30_encoding.md R61 give it, LSB-0 (R7); a line is a list of characters (R171, D14). -/

namespace Sys2Proof

/-- A RawOpcode: "an unsigned 16-bit value" (00_scope.md R6, R10). -/
abbrev Word := BitVec 16

/-- A byte of IBUF, and the field `kk` (20_memory.md R40, 30_encoding.md R61). -/
abbrev Byte := BitVec 8

/-- The fields `op`, `x`, `y`, `n` (30_encoding.md R61). -/
abbrev Nibble := BitVec 4

/-- The field `nnn` (30_encoding.md R61). -/
abbrev Addr := BitVec 12

/-- A character string; every character REN produces is ASCII (48_renderer.md R171; log 11). -/
abbrev Text := List Char

end Sys2Proof
end

