-- ==== Sys2Proof/Config.lean ====
section
/-! DEFINITION. The parameters of the block (00_scope.md R6) that are no function of a word: the three
offset-rendering modes and the two numbers that bound an offset. No free value stands here: the spec
leaves no result of an instruction open (93_implementation_defined.md Part 1). -/

namespace Sys2Proof

/-- The offset-rendering mode, "an enumerated configuration" with exactly three values (10_state.md R25).
The reserved bit pattern 3 "cannot be written down". -/
inductive OffsetMode where
  /-- 0: "no offset rendered". -/
  | none
  /-- 1: "0-based, increments by 2, rendered as a short hex value". -/
  | byteOffset
  /-- 2: "base 0x200, increments by 2, rendered as a 3-hex-digit value". -/
  | addressOffset
  deriving DecidableEq, Repr

/-- `OFFSET_STEP`, and `INSTR_BYTES`: 2 (00_scope.md R6, 10_state.md R22). -/
def Config.offsetStep : Nat := 2

/-- The first offset that no longer fits `OFFSET_WIDTH` = 16 bits; it bounds the admitted input length
(00_scope.md R6, 10_state.md R27). -/
def Config.offsetLimit : Nat := 0x10000

end Sys2Proof
end

