-- ==== Sys2Proof/Syntax.lean ====
section
/-! DEFINITION. The DecodedInstruction record: the 36 cases of 30_encoding.md R66, in the order of their tags, each
"carrying only the operands it needs" (41_dispatch.md R96), and the six formats of R62. -/

namespace Sys2Proof

/-- A decoded instruction (30_encoding.md R66). The two `Invalid` rows of spec/opcode_table.json are one
case, `invalid`, as R66 (tag 35) says. -/
inductive Instr where
  /-- tag 0, R100 -/
  | cls
  /-- tag 1, R101 -/
  | ret
  /-- tag 2, R102 -/
  | sys (nnn : Addr)
  /-- tag 3, R110 -/
  | jp (nnn : Addr)
  /-- tag 4, R111 -/
  | call (nnn : Addr)
  /-- tag 5, R112 -/
  | seVxKk (x : Nibble) (kk : Byte)
  /-- tag 6, R113 -/
  | sneVxKk (x : Nibble) (kk : Byte)
  /-- tag 7, R114 -/
  | seVxVy (x y : Nibble)
  /-- tag 8, R115 -/
  | ldVxKk (x : Nibble) (kk : Byte)
  /-- tag 9, R116 -/
  | addVxKk (x : Nibble) (kk : Byte)
  /-- tag 10, R121 -/
  | ldVxVy (x y : Nibble)
  /-- tag 11, R122 -/
  | orVxVy (x y : Nibble)
  /-- tag 12, R123 -/
  | andVxVy (x y : Nibble)
  /-- tag 13, R124 -/
  | xorVxVy (x y : Nibble)
  /-- tag 14, R125 -/
  | addVxVy (x y : Nibble)
  /-- tag 15, R126 -/
  | subVxVy (x y : Nibble)
  /-- tag 16, R127 -/
  | shrVx (x : Nibble)
  /-- tag 17, R128 -/
  | subnVxVy (x y : Nibble)
  /-- tag 18, R129 -/
  | shlVx (x : Nibble)
  /-- tag 19, R135 -/
  | sneVxVy (x y : Nibble)
  /-- tag 20, R136 -/
  | ldINnn (nnn : Addr)
  /-- tag 21, R137 -/
  | jpV0Nnn (nnn : Addr)
  /-- tag 22, R138 -/
  | rndVxKk (x : Nibble) (kk : Byte)
  /-- tag 23, R139 -/
  | drw (x y n : Nibble)
  /-- tag 24, R145 -/
  | skp (x : Nibble)
  /-- tag 25, R146 -/
  | sknp (x : Nibble)
  /-- tag 26, R151 -/
  | ldVxDt (x : Nibble)
  /-- tag 27, R152 -/
  | ldVxK (x : Nibble)
  /-- tag 28, R153 -/
  | ldDtVx (x : Nibble)
  /-- tag 29, R154 -/
  | ldStVx (x : Nibble)
  /-- tag 30, R155 -/
  | addIVx (x : Nibble)
  /-- tag 31, R156 -/
  | ldFVx (x : Nibble)
  /-- tag 32, R157 -/
  | ldBVx (x : Nibble)
  /-- tag 33, R158 -/
  | ldMiVx (x : Nibble)
  /-- tag 34, R159 -/
  | ldVxMi (x : Nibble)
  /-- tag 35, R94: the record carries the whole word -/
  | invalid (opcode : Word)
  deriving DecidableEq, Repr

/-- The six formats of 30_encoding.md R62. -/
inductive Format where
  | fixed
  | nnn
  | xkk
  | xy
  | xyn
  | xsub
  deriving DecidableEq, Repr

end Sys2Proof
end

