-- ==== Sys2Proof/Machine/State.lean ====
section
/-! DEFINITION. The whole state of the block, "the state of SD" and the parameters of a pass (10_state.md R21), the reasons a step
can stop, and the state after reset (R33). -/

namespace Sys2Proof.Machine

/-- Where a pass stands (10_state.md R24). -/
inductive Phase where
  /-- no pass has been started; OUT, DIAG and `idx` hold no meaning -/
  | idle
  /-- START has been given and windows are left -/
  | running
  /-- the pass is over; OUT, DIAG and `idx` keep their values until the next START -/
  | done
  deriving DecidableEq, Repr

/-- A diagnostic; "there are exactly two kinds" (10_state.md R30). Their wording is not in the spec (log 14). -/
inductive Diag where
  /-- the "input byte-count notice", carrying LEN -/
  | byteCount (n : Nat)
  /-- the "odd-length-input warning" -/
  | malformedLength
  deriving DecidableEq, Repr

/-- An entry of OUT: the triple (offset, record, line) (10_state.md R29). -/
structure OutEntry where
  offset : Option Nat
  instr : Instr
  line : Text
  deriving DecidableEq, Repr

/-- IBUF: the bytes that are there, by index, the indices strictly rising; an index that is not listed holds no
byte (20_memory.md R40, 70_reset_and_hazards.md R234; log 1). -/
abbrev Memory := List Host.Cell

/-- The state of the block (10_state.md R21). -/
structure State where
  /-- R24 -/
  phase : Phase
  /-- the byte index in IBUF of the next window, R22 -/
  idx : Nat
  /-- OUT, R29 -/
  out : List OutEntry
  /-- DIAG, R30 -/
  diag : List Diag
  /-- MODE, R25 -/
  mode : OffsetMode
  /-- LEN, R27 -/
  len : Nat
  /-- IBUF, R28 -/
  ibuf : Memory
  deriving DecidableEq, Repr

/-- No fault exists: "Nothing in the block is `fault` or `stuck`" (93_implementation_defined.md Part 1, 60_exceptions.md R210). -/
inductive Fault where
  deriving DecidableEq, Repr

/-- Why the model gives a situation no meaning. Every constructor but the first is an edge of the model's domain that the
spec calls `refuse` (60_exceptions.md R224), or a step that is not enabled (49_stream_driver.md R193). -/
inductive Refusal where
  /-- Raised by an arm of `exec` for an instruction without a meaning; safe. No arm raises it in this model. -/
  | notModelled (mnemonic : String)
  /-- Raised by `step` outside `running`: SD "has no enabled step" (R193, R195); safe (log 5). -/
  | notRunning
  /-- Raised by START and by every meaning: LEN outside the admitted domain of MODE (R27, U4); safe (log 8). -/
  | lenNotAdmitted
  /-- Raised by the fetch: MemRead outside `0 .. LEN-1` is not defined (R41); safe. SD never makes the call. -/
  | readOutsideBuffer
  /-- Raised by START, and by a fetch of a missing byte: LEN is larger than the memory present (R234); safe (log 1). -/
  | byteNotPresent
  /-- Raised by every meaning: `render` with an offset mode and no offset (R169, U5); safe. SD never makes the call. -/
  | offsetMissing
  /-- Raised by the host's START while `running` (R191, U9); the spec calls the missing move an error toward proving: unsafe (log 7). -/
  | startWhileRunning
  /-- Raised by the host's change of IBUF, LEN or MODE while `running` (R52, U6); unsafe, as the spec says (log 7). -/
  | inputChangedWhileRunning
  /-- Raised by the host's write of the reserved value 3 to MODE (R25, U7); safe (log 8). -/
  | reservedMode
  deriving DecidableEq, Repr

/-- The state right after START (10_state.md R33, 70_reset_and_hazards.md R230), for the host inputs of logs 2 and 3: an
empty IBUF, LEN = 0, MODE = None. With them R33 gives `phase` = Done and DIAG = [ByteCount(0)]. -/
def State.reset : State where
  phase := .done
  idx := 0
  out := []
  diag := [.byteCount 0]
  mode := .none
  len := 0
  ibuf := []

end Sys2Proof.Machine
end

