-- ==== Sys2Proof/Machine/Flags.lean ====
section
/-! DEFINITION. The block has no condition code and no CHIP-8 flag, and no instruction writes a flag (10_state.md R31, "Flags written: none" of every
instruction rule). What stands here is all the spec has in their place: the one status of a pass ("the input length was
odd"), the diagnostics START derives from it, and the error classes that reach the core (60_exceptions.md R211). -/

namespace Sys2Proof.Machine

/-- The one status bit of a pass, `LEN mod 2 = 1` (10_state.md R31). -/
def oddLength (len : Nat) : Bool := len % 2 == 1

/-- DIAG right after START, and to the end of the pass: the notice, then the warning for an odd LEN
(49_stream_driver.md R191, R192, R197). -/
def startDiag (len : Nat) : List Diag :=
  .byteCount len :: (if oddLength len then [.malformedLength] else [])

/-- The error classes that exist for the block (60_exceptions.md R211). The other two of the taxonomy arise only in the
command-line wrapper: "A model has no constructor for it" (R214, R215; log 17). -/
inductive ErrorClass where
  /-- LEN is odd (R212) -/
  | malformedLength
  /-- the word matches no instruction (R213) -/
  | unrecognizedOpcode
  deriving DecidableEq, Repr

/-- The numeric code (60_exceptions.md R211, D12). -/
def ErrorClass.code : ErrorClass → Nat
  | .malformedLength => 1
  | .unrecognizedOpcode => 2

/-- The class a diagnostic reports. The notice "is a notice, not an error" (60_exceptions.md R216). -/
def diagClass : Diag → Option ErrorClass
  | .byteCount _ => none
  | .malformedLength => some .malformedLength

/-- The class a record reports: UnrecognizedOpcode "*is* this record" (41_dispatch.md R94, 60_exceptions.md R213). -/
def recordClass : Instr → Option ErrorClass
  | .invalid _ => some .unrecognizedOpcode
  | .cls | .ret | .sys _ | .jp _ | .call _ | .seVxKk _ _ | .sneVxKk _ _ | .seVxVy _ _ | .ldVxKk _ _ | .addVxKk _ _
  | .ldVxVy _ _ | .orVxVy _ _ | .andVxVy _ _ | .xorVxVy _ _ | .addVxVy _ _ | .subVxVy _ _ | .shrVx _
  | .subnVxVy _ _ | .shlVx _ | .sneVxVy _ _ | .ldINnn _ | .jpV0Nnn _ | .rndVxKk _ _ | .drw _ _ _ | .skp _
  | .sknp _ | .ldVxDt _ | .ldVxK _ | .ldDtVx _ | .ldStVx _ | .addIVx _ | .ldFVx _ | .ldBVx _ | .ldMiVx _
  | .ldVxMi _ => none

end Sys2Proof.Machine
end

