-- ==== Sys2Proof/WellFormed.lean ====
section
/-! DEFINITION. The records DEC can produce: all but a `SYS` record with one of the two exact words of family 0, and
an `INVALID` record with a word that some instruction matches (42_family_0.md R102, 30_encoding.md R68). -/

namespace Sys2Proof

/-- The values of `n` that family 8 does not match (44_family_8.md R130). -/
def unmatchedNs : List Nibble := [0x8, 0x9, 0xA, 0xB, 0xC, 0xD, 0xF]

/-- The nine values of `kk` that family F matches (47_family_F.md R150). -/
def matchedKks : List Byte := [0x07, 0x0A, 0x15, 0x18, 0x1E, 0x29, 0x33, 0x55, 0x65]

/-- The 5744 illegal words of 30_encoding.md R68, read off the bits of the word. -/
def illegalWord (w : Word) : Bool :=
  (w.extractLsb' 12 4 == 0x8#4 && unmatchedNs.contains (w.extractLsb' 0 4)) ||
    (w.extractLsb' 12 4 == 0xF#4 && !matchedKks.contains (w.extractLsb' 0 8))

/-- A record DEC can produce. Every operand of the other 34 cases takes every value of its width (30_encoding.md R63, R66). -/
def Instr.wellFormed : Instr → Bool
  | .sys nnn => nnn != 0x0E0#12 && nnn != 0x0EE#12
  | .invalid w => illegalWord w
  | .cls | .ret | .jp _ | .call _ | .seVxKk _ _ | .sneVxKk _ _ | .seVxVy _ _ | .ldVxKk _ _ | .addVxKk _ _
  | .ldVxVy _ _ | .orVxVy _ _ | .andVxVy _ _ | .xorVxVy _ _ | .addVxVy _ _ | .subVxVy _ _ | .shrVx _
  | .subnVxVy _ _ | .shlVx _ | .sneVxVy _ _ | .ldINnn _ | .jpV0Nnn _ | .rndVxKk _ _ | .drw _ _ _ | .skp _
  | .sknp _ | .ldVxDt _ | .ldVxK _ | .ldDtVx _ | .ldStVx _ | .addIVx _ | .ldFVx _ | .ldBVx _ | .ldMiVx _
  | .ldVxMi _ => true

end Sys2Proof
end

