-- ==== Sys2Proof/Decode.lean ====
section
/-! DEFINITION. The two combinational units in front of the renderer, FX (40_field_extractor.md) and DEC (41_dispatch.md to
47_family_F.md); the same map as the first-match table of spec/opcode_table.json (30_encoding.md R67);
the decoder over bytes; and an encoder, which is the model's own device for stating that decoding drops no bit
(the block has no assembler, 00_scope.md R5; log 10). -/

namespace Sys2Proof

/-! ## Bytes and words -/

/-- The opcode of two consecutive bytes, the lower index first: `(zext_16(b0) << 8) | zext_16(b1)` (20_memory.md R42). -/
def wordOf (b0 b1 : Byte) : Word := (b0.setWidth 16 <<< 8) ||| b1.setWidth 16

/-- The byte at the lower index of a word in IBUF: bits 15:8 (20_memory.md R42). -/
def highByte (w : Word) : Byte := w.extractLsb' 8 8

/-- The byte at the higher index of a word in IBUF: bits 7:0 (20_memory.md R42). -/
def lowByte (w : Word) : Byte := w.extractLsb' 0 8

/-! ## FX, the nibble-field extractor -/

/-- The record `Fields{op, x, y, kk, nnn, n}` (40_field_extractor.md R80). -/
structure Fields where
  op : Nibble
  x : Nibble
  y : Nibble
  kk : Byte
  nnn : Addr
  n : Nibble
  deriving DecidableEq, Repr

/-- FX: "Pure, total, no error condition" (40_field_extractor.md R80 to R86). -/
def fields (w : Word) : Fields where
  op := w.extractLsb' 12 4
  x := w.extractLsb' 8 4
  y := w.extractLsb' 4 4
  kk := w.extractLsb' 0 8
  nnn := w.extractLsb' 0 12
  n := w.extractLsb' 0 4

/-! ## DEC, the opcode dispatch multiplexer -/

/-- Family 0, on the whole word (42_family_0.md R100 to R102). -/
def family0 (w : Word) (nnn : Addr) : Instr :=
  if w = 0x00E0#16 then .cls
  else if w = 0x00EE#16 then .ret
  else .sys nnn

/-- Family 8, on `n` (44_family_8.md R120). -/
def family8 (w : Word) (x y n : Nibble) : Instr :=
  match n with
  | 0x0#4 => .ldVxVy x y
  | 0x1#4 => .orVxVy x y
  | 0x2#4 => .andVxVy x y
  | 0x3#4 => .xorVxVy x y
  | 0x4#4 => .addVxVy x y
  | 0x5#4 => .subVxVy x y
  | 0x6#4 => .shrVx x
  | 0x7#4 => .subnVxVy x y
  | 0xE#4 => .shlVx x
  | _ => .invalid w

/-- Family E, one comparison on `kk` (46_family_E.md R145, R146). -/
def familyE (x : Nibble) (kk : Byte) : Instr :=
  if kk = 0x9E#8 then .skp x else .sknp x

/-- Family F, on `kk` (47_family_F.md R150). -/
def familyF (w : Word) (x : Nibble) (kk : Byte) : Instr :=
  match kk with
  | 0x07#8 => .ldVxDt x
  | 0x0A#8 => .ldVxK x
  | 0x15#8 => .ldDtVx x
  | 0x18#8 => .ldStVx x
  | 0x1E#8 => .addIVx x
  | 0x29#8 => .ldFVx x
  | 0x33#8 => .ldBVx x
  | 0x55#8 => .ldMiVx x
  | 0x65#8 => .ldVxMi x
  | _ => .invalid w

/-- DEC: "every possible 16-bit input must map to some DecodedInstruction" (41_dispatch.md R90, R91). The last arm
is the one R95 allows: no value of `op` reaches it. -/
def decode (w : Word) : Instr :=
  let f := fields w
  match f.op with
  | 0x0#4 => family0 w f.nnn
  | 0x1#4 => .jp f.nnn
  | 0x2#4 => .call f.nnn
  | 0x3#4 => .seVxKk f.x f.kk
  | 0x4#4 => .sneVxKk f.x f.kk
  | 0x5#4 => .seVxVy f.x f.y
  | 0x6#4 => .ldVxKk f.x f.kk
  | 0x7#4 => .addVxKk f.x f.kk
  | 0x8#4 => family8 w f.x f.y f.n
  | 0x9#4 => .sneVxVy f.x f.y
  | 0xA#4 => .ldINnn f.nnn
  | 0xB#4 => .jpV0Nnn f.nnn
  | 0xC#4 => .rndVxKk f.x f.kk
  | 0xD#4 => .drw f.x f.y f.n
  | 0xE#4 => familyE f.x f.kk
  | 0xF#4 => familyF w f.x f.kk
  | _ => .invalid w

/-! ## The decoder over bytes -/

/-- Why a list of bytes gives no word. A window is two bytes; a single byte is never "decoded as a
half-instruction" (20_memory.md R44). -/
inductive DecodeReject where
  /-- no byte at all -/
  | noByte
  /-- one byte only, the shape of an odd trailing byte -/
  | halfWord
  deriving DecidableEq, Repr

/-- The instruction at the front of a list of bytes, and the bytes after it. Total: every pair of bytes decodes (R90). -/
def decodeBytes : List Byte → Except DecodeReject (Instr × List Byte)
  | b0 :: b1 :: rest => .ok (decode (wordOf b0 b1), rest)
  | [_] => .error .halfWord
  | [] => .error .noByte

/-! ## Tag, format, mnemonic of a record -/

/-- The select value of the dispatch multiplexer (30_encoding.md R66). -/
def Instr.tag : Instr → Nat
  | .cls => 0
  | .ret => 1
  | .sys _ => 2
  | .jp _ => 3
  | .call _ => 4
  | .seVxKk _ _ => 5
  | .sneVxKk _ _ => 6
  | .seVxVy _ _ => 7
  | .ldVxKk _ _ => 8
  | .addVxKk _ _ => 9
  | .ldVxVy _ _ => 10
  | .orVxVy _ _ => 11
  | .andVxVy _ _ => 12
  | .xorVxVy _ _ => 13
  | .addVxVy _ _ => 14
  | .subVxVy _ _ => 15
  | .shrVx _ => 16
  | .subnVxVy _ _ => 17
  | .shlVx _ => 18
  | .sneVxVy _ _ => 19
  | .ldINnn _ => 20
  | .jpV0Nnn _ => 21
  | .rndVxKk _ _ => 22
  | .drw _ _ _ => 23
  | .skp _ => 24
  | .sknp _ => 25
  | .ldVxDt _ => 26
  | .ldVxK _ => 27
  | .ldDtVx _ => 28
  | .ldStVx _ => 29
  | .addIVx _ => 30
  | .ldFVx _ => 31
  | .ldBVx _ => 32
  | .ldMiVx _ => 33
  | .ldVxMi _ => 34
  | .invalid _ => 35

/-- The format of a record's word (30_encoding.md R62). R62 gives `INVALID` none; its two rows in
spec/opcode_table.json carry the format of the family they close, so the family decides here. -/
def Instr.format : Instr → Format
  | .cls | .ret => .fixed
  | .sys _ | .jp _ | .call _ | .ldINnn _ | .jpV0Nnn _ => .nnn
  | .seVxKk _ _ | .sneVxKk _ _ | .ldVxKk _ _ | .addVxKk _ _ | .rndVxKk _ _ => .xkk
  | .seVxVy _ _ | .sneVxVy _ _ | .ldVxVy _ _ | .orVxVy _ _ | .andVxVy _ _ | .xorVxVy _ _ | .addVxVy _ _
  | .subVxVy _ _ | .shrVx _ | .subnVxVy _ _ | .shlVx _ => .xy
  | .drw _ _ _ => .xyn
  | .skp _ | .sknp _ | .ldVxDt _ | .ldVxK _ | .ldDtVx _ | .ldStVx _ | .addIVx _ | .ldFVx _ | .ldBVx _
  | .ldMiVx _ | .ldVxMi _ => .xsub
  | .invalid w => if (fields w).op = 0x8#4 then .xy else .xsub

/-! ## The encoder -/

/-- A word that decodes to the record. The bits DEC drops (41_dispatch.md R96) are the model's choice: `y` and `n` are
0, and `kk` of `SKNP` is 0xA1 (log 10). -/
def encode : Instr → Word
  | .cls => 0x00E0#16
  | .ret => 0x00EE#16
  | .sys nnn => 0x0#4 ++ nnn
  | .jp nnn => 0x1#4 ++ nnn
  | .call nnn => 0x2#4 ++ nnn
  | .seVxKk x kk => 0x3#4 ++ x ++ kk
  | .sneVxKk x kk => 0x4#4 ++ x ++ kk
  | .seVxVy x y => 0x5#4 ++ x ++ y ++ 0x0#4
  | .ldVxKk x kk => 0x6#4 ++ x ++ kk
  | .addVxKk x kk => 0x7#4 ++ x ++ kk
  | .ldVxVy x y => 0x8#4 ++ x ++ y ++ 0x0#4
  | .orVxVy x y => 0x8#4 ++ x ++ y ++ 0x1#4
  | .andVxVy x y => 0x8#4 ++ x ++ y ++ 0x2#4
  | .xorVxVy x y => 0x8#4 ++ x ++ y ++ 0x3#4
  | .addVxVy x y => 0x8#4 ++ x ++ y ++ 0x4#4
  | .subVxVy x y => 0x8#4 ++ x ++ y ++ 0x5#4
  | .shrVx x => 0x8#4 ++ x ++ 0x0#4 ++ 0x6#4
  | .subnVxVy x y => 0x8#4 ++ x ++ y ++ 0x7#4
  | .shlVx x => 0x8#4 ++ x ++ 0x0#4 ++ 0xE#4
  | .sneVxVy x y => 0x9#4 ++ x ++ y ++ 0x0#4
  | .ldINnn nnn => 0xA#4 ++ nnn
  | .jpV0Nnn nnn => 0xB#4 ++ nnn
  | .rndVxKk x kk => 0xC#4 ++ x ++ kk
  | .drw x y n => 0xD#4 ++ x ++ y ++ n
  | .skp x => 0xE#4 ++ x ++ 0x9E#8
  | .sknp x => 0xE#4 ++ x ++ 0xA1#8
  | .ldVxDt x => 0xF#4 ++ x ++ 0x07#8
  | .ldVxK x => 0xF#4 ++ x ++ 0x0A#8
  | .ldDtVx x => 0xF#4 ++ x ++ 0x15#8
  | .ldStVx x => 0xF#4 ++ x ++ 0x18#8
  | .addIVx x => 0xF#4 ++ x ++ 0x1E#8
  | .ldFVx x => 0xF#4 ++ x ++ 0x29#8
  | .ldBVx x => 0xF#4 ++ x ++ 0x33#8
  | .ldMiVx x => 0xF#4 ++ x ++ 0x55#8
  | .ldVxMi x => 0xF#4 ++ x ++ 0x65#8
  | .invalid w => w

/-- The two bytes of `encode`, as they stand in IBUF (20_memory.md R42). -/
def encodeBytes (i : Instr) : List Byte := [highByte (encode i), lowByte (encode i)]

/-! ## The first-match opcode table -/

/-- A row of spec/opcode_table.json (30_encoding.md R67): "a word w fits a row when (w & mask) = match". -/
structure Row where
  priority : Nat
  mnemonic : String
  format : Format
  mask : Word
  value : Word
  tag : Nat
  build : Word → Fields → Instr

/-- The rows of families 0 to 7. -/
def opcodeTableLow : List Row := [
  ⟨1, "CLS", .fixed, 0xFFFF, 0x00E0, 0, fun _ _ => .cls⟩,
  ⟨2, "RET", .fixed, 0xFFFF, 0x00EE, 1, fun _ _ => .ret⟩,
  ⟨3, "SYS", .nnn, 0xF000, 0x0000, 2, fun _ f => .sys f.nnn⟩,
  ⟨4, "JP", .nnn, 0xF000, 0x1000, 3, fun _ f => .jp f.nnn⟩,
  ⟨5, "CALL", .nnn, 0xF000, 0x2000, 4, fun _ f => .call f.nnn⟩,
  ⟨6, "SE", .xkk, 0xF000, 0x3000, 5, fun _ f => .seVxKk f.x f.kk⟩,
  ⟨7, "SNE", .xkk, 0xF000, 0x4000, 6, fun _ f => .sneVxKk f.x f.kk⟩,
  ⟨8, "SE", .xy, 0xF000, 0x5000, 7, fun _ f => .seVxVy f.x f.y⟩,
  ⟨9, "LD", .xkk, 0xF000, 0x6000, 8, fun _ f => .ldVxKk f.x f.kk⟩,
  ⟨10, "ADD", .xkk, 0xF000, 0x7000, 9, fun _ f => .addVxKk f.x f.kk⟩]

/-- The rows of families 8 to D. -/
def opcodeTableMiddle : List Row := [
  ⟨11, "LD", .xy, 0xF00F, 0x8000, 10, fun _ f => .ldVxVy f.x f.y⟩,
  ⟨12, "OR", .xy, 0xF00F, 0x8001, 11, fun _ f => .orVxVy f.x f.y⟩,
  ⟨13, "AND", .xy, 0xF00F, 0x8002, 12, fun _ f => .andVxVy f.x f.y⟩,
  ⟨14, "XOR", .xy, 0xF00F, 0x8003, 13, fun _ f => .xorVxVy f.x f.y⟩,
  ⟨15, "ADD", .xy, 0xF00F, 0x8004, 14, fun _ f => .addVxVy f.x f.y⟩,
  ⟨16, "SUB", .xy, 0xF00F, 0x8005, 15, fun _ f => .subVxVy f.x f.y⟩,
  ⟨17, "SHR", .xy, 0xF00F, 0x8006, 16, fun _ f => .shrVx f.x⟩,
  ⟨18, "SUBN", .xy, 0xF00F, 0x8007, 17, fun _ f => .subnVxVy f.x f.y⟩,
  ⟨19, "SHL", .xy, 0xF00F, 0x800E, 18, fun _ f => .shlVx f.x⟩,
  ⟨20, "Invalid", .xy, 0xF000, 0x8000, 35, fun w _ => .invalid w⟩,
  ⟨21, "SNE", .xy, 0xF000, 0x9000, 19, fun _ f => .sneVxVy f.x f.y⟩,
  ⟨22, "LD", .nnn, 0xF000, 0xA000, 20, fun _ f => .ldINnn f.nnn⟩,
  ⟨23, "JP", .nnn, 0xF000, 0xB000, 21, fun _ f => .jpV0Nnn f.nnn⟩,
  ⟨24, "RND", .xkk, 0xF000, 0xC000, 22, fun _ f => .rndVxKk f.x f.kk⟩,
  ⟨25, "DRW", .xyn, 0xF000, 0xD000, 23, fun _ f => .drw f.x f.y f.n⟩]

/-- The rows of families E and F. -/
def opcodeTableHigh : List Row := [
  ⟨26, "SKP", .xsub, 0xF0FF, 0xE09E, 24, fun _ f => .skp f.x⟩,
  ⟨27, "SKNP", .xsub, 0xF000, 0xE000, 25, fun _ f => .sknp f.x⟩,
  ⟨28, "LD", .xsub, 0xF0FF, 0xF007, 26, fun _ f => .ldVxDt f.x⟩,
  ⟨29, "LD", .xsub, 0xF0FF, 0xF00A, 27, fun _ f => .ldVxK f.x⟩,
  ⟨30, "LD", .xsub, 0xF0FF, 0xF015, 28, fun _ f => .ldDtVx f.x⟩,
  ⟨31, "LD", .xsub, 0xF0FF, 0xF018, 29, fun _ f => .ldStVx f.x⟩,
  ⟨32, "ADD", .xsub, 0xF0FF, 0xF01E, 30, fun _ f => .addIVx f.x⟩,
  ⟨33, "LD", .xsub, 0xF0FF, 0xF029, 31, fun _ f => .ldFVx f.x⟩,
  ⟨34, "LD", .xsub, 0xF0FF, 0xF033, 32, fun _ f => .ldBVx f.x⟩,
  ⟨35, "LD", .xsub, 0xF0FF, 0xF055, 33, fun _ f => .ldMiVx f.x⟩,
  ⟨36, "LD", .xsub, 0xF0FF, 0xF065, 34, fun _ f => .ldVxMi f.x⟩,
  ⟨37, "Invalid", .xsub, 0xF000, 0xF000, 35, fun w _ => .invalid w⟩]

/-- The 37 rows in ascending priority (30_encoding.md R67). -/
def opcodeTable : List Row := opcodeTableLow ++ (opcodeTableMiddle ++ opcodeTableHigh)

/-- `(w & mask) = match`. -/
def Row.fits (r : Row) (w : Word) : Bool := w &&& r.mask == r.value

/-- "The first row that fits wins"; `none` when no row fits, which R67 says never happens. -/
def firstRow (w : Word) : Option Row := opcodeTable.find? (fun r => r.fits w)

/-- The record the table gives a word. -/
def tableDecode (w : Word) : Option Instr := (firstRow w).map fun r => r.build w (fields w)

/-! ## Words as spec/opcode_table.json numbers their bits -/

/-- The word whose bits are `w`, of which the table gives `nbits`; the bits above are 0. -/
def tableWord (nbits w : Nat) : Word := BitVec.ofNat 16 (w % 2 ^ nbits)

/-- What the decoder reads from that word, laid out high byte first (20_memory.md R42). -/
def decodeTableWord (nbits w : Nat) : Option Instr :=
  match decodeBytes [highByte (tableWord nbits w), lowByte (tableWord nbits w)] with
  | .ok (i, _) => some i
  | .error _ => none

end Sys2Proof
end

