-- ==== Sys2Proof/Machine/Ops.lean ====
section
/-! DEFINITION. The named operations over IBUF and over SD's counters (20_memory.md, 10_state.md). The block has no register
file to read or write (R20) and no exception to take or to return from: "No state is saved, no mode changes, no vector table or
handler address exists" (60_exceptions.md R210, R220, R221), so no such operation stands here. -/

namespace Sys2Proof.Machine

/-! ## IBUF as a memory -/

/-- The canonical form: indices strictly rising. An unlisted index holds no byte, so no entry can equal what it reads as. -/
abbrev Memory.wf (m : Memory) : Prop := m.Pairwise fun p q => p.1 < q.1

/-- The byte at an index, if there is one. -/
def Memory.read : Memory → Nat → Option Byte
  | [], _ => none
  | (k, v) :: m, a => if k = a then some v else Memory.read m a

/-- Put a byte at an index. Only the host writes IBUF (20_memory.md R46, R52). -/
def Memory.write : Memory → Nat → Byte → Memory
  | [], a, b => [(a, b)]
  | (k, v) :: m, a, b =>
    if a < k then (a, b) :: (k, v) :: m
    else if a = k then (a, b) :: m
    else (k, v) :: Memory.write m a b

/-- The bytes of a list at indices `start`, `start + 1`, … -/
def Memory.ofBytesFrom : Nat → List Byte → Memory
  | _, [] => []
  | start, b :: bs => (start, b) :: Memory.ofBytesFrom (start + 1) bs

/-- The memory that holds a whole input, index 0 first (10_state.md R28). -/
def Memory.ofBytes (bs : List Byte) : Memory := Memory.ofBytesFrom 0 bs

/-- The `n` bytes from an index on, lowest first, if all are there. -/
def Memory.readMany (m : Memory) : Nat → Nat → Option (List Byte)
  | _, 0 => some []
  | a, n + 1 =>
    match m.read a, Memory.readMany m (a + 1) n with
    | some b, some bs => some (b :: bs)
    | _, _ => none

/-- A memory has a byte at every index below `n`: "`LEN` bytes are readable" (70_reset_and_hazards.md R234). -/
def Memory.holds (m : Memory) (n : Nat) : Bool := (List.range n).all fun a => (m.read a).isSome

/-- `MemRead(addr, n)`, "defined only when addr + n <= LEN" (20_memory.md R41); refused too where a byte is not
present (70_reset_and_hazards.md R234). -/
def State.memRead (s : State) (addr n : Nat) : Except Refusal (List Byte) :=
  if addr + n ≤ s.len then
    match s.ibuf.readMany addr n with
    | some bs => .ok bs
    | none => .error .byteNotPresent
  else .error .readOutsideBuffer

/-- SD's fetch: the window at `idx`, big-endian (20_memory.md R42, 49_stream_driver.md R193). -/
def State.fetch (s : State) : Except Refusal Word :=
  match s.memRead s.idx 2 with
  | .ok [b0, b1] => .ok (wordOf b0 b1)
  | .ok _ => .error .byteNotPresent
  | .error r => .error r

/-! ## MODE, LEN and the offset -/

/-- `BASE(mode)`; in mode None "no offset exists" (00_scope.md R6). -/
def base : OffsetMode → Option Nat
  | .none => none
  | .byteOffset => some 0
  | .addressOffset => some 0x200

/-- `offset(MODE, idx)` (10_state.md R23). -/
def offset (mode : OffsetMode) (idx : Nat) : Option Nat := (base mode).map fun b => b + idx

/-- `2*floor(LEN/2)`, where a pass ends (10_state.md R22, 49_stream_driver.md R195). -/
def evenLen (len : Nat) : Nat := 2 * (len / 2)

/-- The admitted domain of LEN (10_state.md R27): every offset printed then fits 16 bits. -/
def admitted (mode : OffsetMode) (len : Nat) : Bool :=
  match base mode with
  | none => true
  | some b => decide (b + evenLen len ≤ Config.offsetLimit)

/-- MODE as two bits (10_state.md R25, D9); 3 is reserved and names no mode. The command line's integers 0, 1, 2 are the
same (R26). -/
def modeOfBits (b : BitVec 2) : Option OffsetMode :=
  match b with
  | 0#2 => some .none
  | 1#2 => some .byteOffset
  | 2#2 => some .addressOffset
  | _ => none

/-- The two bits of a mode (10_state.md R25). -/
def modeBits : OffsetMode → BitVec 2
  | .none => 0
  | .byteOffset => 1
  | .addressOffset => 2

/-! ## OUT and `idx` -/

/-- `emit(e)`: append an entry to OUT (00_scope.md R8). -/
def State.append (s : State) (e : OutEntry) : State := { s with out := s.out ++ [e] }

/-- `idx <- idx + 2` and the new phase (49_stream_driver.md R193); nothing else ever moves `idx` (10_state.md R22). -/
def State.advance (s : State) : State :=
  { s with
    idx := s.idx + Config.offsetStep
    phase := if s.idx + Config.offsetStep = evenLen s.len then .done else .running }

end Sys2Proof.Machine
end

