-- ==== Sys2Proof/Machine/Operands.lean ====
section
/-! DEFINITION. Every operand form of the assembly text (30_encoding.md R71): numerals, register names, immediates, and the literal operand
names; and how operands are joined. The block reads no operand's value: an operand is printed (10_state.md R20). -/

namespace Sys2Proof.Machine

/-- One upper-case hex digit; its argument is below 16 (48_renderer.md R166). -/
def hexDigit : Nat → Char
  | 0 => '0'
  | 1 => '1'
  | 2 => '2'
  | 3 => '3'
  | 4 => '4'
  | 5 => '5'
  | 6 => '6'
  | 7 => '7'
  | 8 => '8'
  | 9 => '9'
  | 10 => 'A'
  | 11 => 'B'
  | 12 => 'C'
  | 13 => 'D'
  | 14 => 'E'
  | _ => 'F'

/-- The digits of `v`, most significant first, by repeated `v mod 16` and `floor(v/16)` (41_dispatch.md R97 (g)); the first
argument bounds the number of digits, and `v + 1` is enough. -/
def hexDigitsUpTo : Nat → Nat → Text
  | 0, _ => []
  | fuel + 1, v => if v < 16 then [hexDigit v] else hexDigitsUpTo fuel (v / 16) ++ [hexDigit (v % 16)]

/-- The shortest upper-case hexadecimal numeral of `v`. -/
def hexDigits (v : Nat) : Text := hexDigitsUpTo (v + 1) v

/-- `hexU(v, w)`: left-padded with `0` to at least `w` characters, never shortened (48_renderer.md R166). -/
def hexU (v w : Nat) : Text := List.replicate (w - (hexDigits v).length) '0' ++ hexDigits v

/-- An operand of the assembly text (30_encoding.md R71). -/
inductive Operand where
  /-- `V` and one hex digit -/
  | reg (x : Nibble)
  /-- `0x` and one digit -/
  | immN (n : Nibble)
  /-- `0x` and two digits -/
  | immKk (kk : Byte)
  /-- `0x` and three digits -/
  | immNnn (nnn : Addr)
  /-- `I` -/
  | i
  /-- `DT` -/
  | dt
  /-- `ST` -/
  | st
  /-- `K` -/
  | k
  /-- `F` -/
  | f
  /-- `B` -/
  | b
  /-- `[I]` -/
  | memI
  /-- `V0`, literal text and not a field (45_families_9_to_D.md R137) -/
  | v0
  deriving DecidableEq, Repr

/-- The spelling of an operand (30_encoding.md R71, 48_renderer.md R166, R167). -/
def Operand.spell : Operand → Text
  | .reg x => 'V' :: hexU x.toNat 1
  | .immN n => "0x".toList ++ hexU n.toNat 1
  | .immKk kk => "0x".toList ++ hexU kk.toNat 2
  | .immNnn nnn => "0x".toList ++ hexU nnn.toNat 3
  | .i => "I".toList
  | .dt => "DT".toList
  | .st => "ST".toList
  | .k => "K".toList
  | .f => "F".toList
  | .b => "B".toList
  | .memI => "[I]".toList
  | .v0 => "V0".toList

/-- Operands "separated by a comma and one space" (30_encoding.md R71). -/
def joinOperands : List Operand → Text
  | [] => []
  | [o] => o.spell
  | o :: os => o.spell ++ ", ".toList ++ joinOperands os

end Sys2Proof.Machine
end

