-- ==== Sys2Proof/Machine/Renderer.lean ====
section
/-! DEFINITION. REN, the renderer (48_renderer.md): the text of every record row by row (R168), the prefix (R169), the line (R165); and the grammar of
30_encoding.md R71, a second way to write the same texts. -/

namespace Sys2Proof.Machine

/-- `"<mnemonic> V" ++ X ++ ", V" ++ Y`, the form "`OP Vx, Vy`" (48_renderer.md R168). -/
def textVxVy (op : String) (x y : Nibble) : Text :=
  op.toList ++ " V".toList ++ hexU x.toNat 1 ++ ", V".toList ++ hexU y.toNat 1

/-- `"<mnemonic> V" ++ X ++ ", 0x" ++ hexU(kk, 2)` (48_renderer.md R168). -/
def textVxKk (op : String) (x : Nibble) (kk : Byte) : Text :=
  op.toList ++ " V".toList ++ hexU x.toNat 1 ++ ", 0x".toList ++ hexU kk.toNat 2

/-- `text(instr)`, the whole mapping (48_renderer.md R168). -/
def text : Instr → Text
  | .cls => "CLS ".toList
  | .ret => "RET ".toList
  | .sys nnn => "SYS 0x".toList ++ hexU nnn.toNat 3
  | .jp nnn => "JP 0x".toList ++ hexU nnn.toNat 3
  | .call nnn => "CALL 0x".toList ++ hexU nnn.toNat 3
  | .seVxKk x kk => textVxKk "SE" x kk
  | .sneVxKk x kk => textVxKk "SNE" x kk
  | .seVxVy x y => textVxVy "SE" x y
  | .ldVxKk x kk => textVxKk "LD" x kk
  | .addVxKk x kk => textVxKk "ADD" x kk
  | .ldVxVy x y => textVxVy "LD" x y
  | .orVxVy x y => textVxVy "OR" x y
  | .andVxVy x y => textVxVy "AND" x y
  | .xorVxVy x y => textVxVy "XOR" x y
  | .addVxVy x y => textVxVy "ADD" x y
  | .subVxVy x y => textVxVy "SUB" x y
  | .shrVx x => "SHR V".toList ++ hexU x.toNat 1
  | .subnVxVy x y => textVxVy "SUBN" x y
  | .shlVx x => "SHL V".toList ++ hexU x.toNat 1
  | .sneVxVy x y => textVxVy "SNE" x y
  | .ldINnn nnn => "LD I, 0x".toList ++ hexU nnn.toNat 3
  | .jpV0Nnn nnn => "JP V0, 0x".toList ++ hexU nnn.toNat 3
  | .rndVxKk x kk => textVxKk "RND" x kk
  | .drw x y n => textVxVy "DRW" x y ++ ", 0x".toList ++ hexU n.toNat 1
  | .skp x => "SKP V".toList ++ hexU x.toNat 1
  | .sknp x => "SKNP V".toList ++ hexU x.toNat 1
  | .ldVxDt x => "LD V".toList ++ hexU x.toNat 1 ++ ", DT".toList
  | .ldVxK x => "LD V".toList ++ hexU x.toNat 1 ++ ", K".toList
  | .ldDtVx x => "LD DT, V".toList ++ hexU x.toNat 1
  | .ldStVx x => "LD ST, V".toList ++ hexU x.toNat 1
  | .addIVx x => "ADD I, V".toList ++ hexU x.toNat 1
  | .ldFVx x => "LD F, V".toList ++ hexU x.toNat 1
  | .ldBVx x => "LD B, V".toList ++ hexU x.toNat 1
  | .ldMiVx x => "LD [I], V".toList ++ hexU x.toNat 1
  | .ldVxMi x => "LD V".toList ++ hexU x.toNat 1 ++ ", [I]".toList
  | .invalid w => "Invalid Opcode 0x".toList ++ hexU w.toNat 4

/-- `prefix(mode, offset)`; `none` where the spec refuses: an offset mode without an offset (48_renderer.md R169). -/
def linePrefix : OffsetMode → Option Nat → Option Text
  | .none, _ => some []
  | .byteOffset, some o => some ("0x".toList ++ hexU o 2 ++ ['\t'])
  | .addressOffset, some o => some ("0x".toList ++ hexU o 3 ++ ['\t'])
  | .byteOffset, none => none
  | .addressOffset, none => none

/-- `render(instr, offset, mode) = prefix(mode, offset) ++ text(instr) ++ "\n"` (48_renderer.md R165). -/
def render (i : Instr) (off : Option Nat) (mode : OffsetMode) : Option Text :=
  (linePrefix mode off).map fun p => p ++ text i ++ ['\n']

/-- The part of a line after its first tab, or the whole line when it has none: "a prefix is everything up to and including
the first `\t` of the line" (48_renderer.md R173). -/
def stripPrefix (line : Text) : Text :=
  if line.contains '\t' then (line.dropWhile (· != '\t')).drop 1 else line

/-! ## The grammar of R71 -/

/-- The mnemonic of a record (30_encoding.md R71); `INVALID` has none. -/
def mnemonicOf : Instr → Option String
  | .cls => some "CLS"
  | .ret => some "RET"
  | .sys _ => some "SYS"
  | .jp _ | .jpV0Nnn _ => some "JP"
  | .call _ => some "CALL"
  | .seVxKk _ _ | .seVxVy _ _ => some "SE"
  | .sneVxKk _ _ | .sneVxVy _ _ => some "SNE"
  | .ldVxKk _ _ | .ldVxVy _ _ | .ldINnn _ | .ldVxDt _ | .ldVxK _ | .ldDtVx _ | .ldStVx _ | .ldFVx _ | .ldBVx _
  | .ldMiVx _ | .ldVxMi _ => some "LD"
  | .addVxKk _ _ | .addVxVy _ _ | .addIVx _ => some "ADD"
  | .orVxVy _ _ => some "OR"
  | .andVxVy _ _ => some "AND"
  | .xorVxVy _ _ => some "XOR"
  | .subVxVy _ _ => some "SUB"
  | .shrVx _ => some "SHR"
  | .subnVxVy _ _ => some "SUBN"
  | .shlVx _ => some "SHL"
  | .rndVxKk _ _ => some "RND"
  | .drw _ _ _ => some "DRW"
  | .skp _ => some "SKP"
  | .sknp _ => some "SKNP"
  | .invalid _ => none

/-- The operands of a record's text, in the order printed (30_encoding.md R71, 48_renderer.md R168). -/
def operandsOf : Instr → List Operand
  | .cls | .ret | .invalid _ => []
  | .sys nnn | .jp nnn | .call nnn => [.immNnn nnn]
  | .seVxKk x kk | .sneVxKk x kk | .ldVxKk x kk | .addVxKk x kk | .rndVxKk x kk => [.reg x, .immKk kk]
  | .seVxVy x y | .ldVxVy x y | .orVxVy x y | .andVxVy x y | .xorVxVy x y | .addVxVy x y | .subVxVy x y
  | .subnVxVy x y | .sneVxVy x y => [.reg x, .reg y]
  | .shrVx x | .shlVx x | .skp x | .sknp x => [.reg x]
  | .ldINnn nnn => [.i, .immNnn nnn]
  | .jpV0Nnn nnn => [.v0, .immNnn nnn]
  | .drw x y n => [.reg x, .reg y, .immN n]
  | .ldVxDt x => [.reg x, .dt]
  | .ldVxK x => [.reg x, .k]
  | .ldDtVx x => [.dt, .reg x]
  | .ldStVx x => [.st, .reg x]
  | .addIVx x => [.i, .reg x]
  | .ldFVx x => [.f, .reg x]
  | .ldBVx x => [.b, .reg x]
  | .ldMiVx x => [.memI, .reg x]
  | .ldVxMi x => [.reg x, .memI]

/-- `text := mnemonic " " [ operand { ", " operand } ]`, and the text of `INVALID` (30_encoding.md R71). -/
def grammarText (i : Instr) : Text :=
  match mnemonicOf i, i with
  | some m, _ => m.toList ++ [' '] ++ joinOperands (operandsOf i)
  | none, .invalid w => "Invalid Opcode 0x".toList ++ hexU w.toNat 4
  | none, _ => []

end Sys2Proof.Machine
end

