-- ==== Sys2Proof/Machine/StreamDriver.lean ====
section
/-! DEFINITION. SD, the stream driver (49_stream_driver.md): the part of a step every instruction shares (`emit`), START, the host's moves, what
the host may read, and the pass as one function (`disassemble`, R190). -/

namespace Sys2Proof.Machine

/-! ## The part of a step that follows DEC -/

/-- `off`, `line`, `emit`, `idx <- idx + 2` and the new phase of 49_stream_driver.md R193, for the record DEC gave; the
shared operation every meaning calls. It refuses where the spec gives the pass no meaning (10_state.md R27; log 8). -/
def emit (i : Instr) (s : State) : Host.Outcome State Fault Refusal :=
  if admitted s.mode s.len then
    match render i (offset s.mode s.idx) s.mode with
    | some line => .next (s.append ⟨offset s.mode s.idx, i, line⟩).advance
    | none => .refused .offsetMissing
  else .refused .lenNotAdmitted

/-! ## START and the host's other moves -/

/-- What START sets, all at once (49_stream_driver.md R191). -/
def State.started (s : State) : State :=
  { s with
    idx := 0
    out := []
    diag := startDiag s.len
    phase := if s.len / 2 = 0 then .done else .running }

/-- START, "allowed in phase `Idle` or `Done`" (49_stream_driver.md R191), for a LEN in the admitted domain (10_state.md R27) and
no "larger than the memory actually present" (70_reset_and_hazards.md R234: "the model refuses"; log 1). -/
def State.start (s : State) : Host.Outcome State Fault Refusal :=
  if s.phase = .running then .refused .startWhileRunning
  else if admitted s.mode s.len then
    if s.ibuf.holds s.len then .next s.started else .refused .byteNotPresent
  else .refused .lenNotAdmitted

/-- A move of the host (70_reset_and_hazards.md R233, R236). -/
inductive HostMove where
  /-- place a whole input in IBUF -/
  | place (bytes : List Byte)
  /-- set LEN -/
  | setLen (n : Nat)
  /-- write the two bits of MODE -/
  | setMode (bits : BitVec 2)
  /-- give START -/
  | start
  deriving DecidableEq, Repr

/-- A change of IBUF, LEN or MODE: allowed in any way in `Idle` and `Done`, no move in `Running` (20_memory.md R52,
70_reset_and_hazards.md R235, R236). -/
def State.setUp (s s' : State) : Host.Outcome State Fault Refusal :=
  if s.phase = .running then .refused .inputChangedWhileRunning else .next s'

/-- The effect of a host move (70_reset_and_hazards.md R233 to R236). -/
def hostMove (m : HostMove) (s : State) : Host.Outcome State Fault Refusal :=
  match m with
  | .place bytes => s.setUp { s with ibuf := Memory.ofBytes bytes }
  | .setLen n => s.setUp { s with len := n }
  | .setMode bits =>
    match modeOfBits bits with
    | some mode => s.setUp { s with mode := mode }
    | none => .refused .reservedMode
  | .start => s.start

/-- Several host moves, in order. -/
def hostMoves : List HostMove → State → Host.Outcome State Fault Refusal
  | [], s => .next s
  | m :: ms, s =>
    match hostMove m s with
    | .next s' => hostMoves ms s'
    | .fault r => .fault r
    | .refused r => .refused r

/-- The host's preparation of a pass: "place the whole input", "set LEN to the number of bytes", "set MODE", then START
(70_reset_and_hazards.md R233). -/
def beginPass (bytes : List Byte) (mode : OffsetMode) : List HostMove :=
  [.place bytes, .setLen bytes.length, .setMode (modeBits mode), .start]

/-- OUT and DIAG as the host may read them: at `Done` only (70_reset_and_hazards.md R236; log 12). -/
def State.result? (s : State) : Option (List OutEntry × List Diag) :=
  if s.phase = .done then some (s.out, s.diag) else none

/-- The concatenated form of OUT: the lines "joined in order with nothing between them" (49_stream_driver.md R201). -/
def concatenated (out : List OutEntry) : Text := (out.map (·.line)).flatten

/-- The state in which `w` stands in the window SD fetches next and the pass is running: the bytes are placed, LEN covers the
window, DIAG carries the new LEN as START would write it (log 4). -/
def State.withWindow (s : State) (w : Word) : State :=
  { s with
    ibuf := (s.ibuf.write s.idx (highByte w)).write (s.idx + 1) (lowByte w)
    len := max s.len (s.idx + 2)
    diag := startDiag (max s.len (s.idx + 2))
    phase := .running }

/-! ## The pass as a function -/

/-- The words of a buffer: windows at 0, 2, 4, …; an odd trailing byte gives none (20_memory.md R43, R44). -/
def windows : List Byte → List Word
  | b0 :: b1 :: rest => wordOf b0 b1 :: windows rest
  | [_] => []
  | [] => []

/-- The entries of OUT for the windows from byte index `idx` on (10_state.md R29); `none` where a line cannot be rendered. -/
def entriesFrom (mode : OffsetMode) : Nat → List Word → Option (List OutEntry)
  | _, [] => some []
  | idx, w :: ws =>
    match render (decode w) (offset mode idx) mode, entriesFrom mode (idx + 2) ws with
    | some line, some rest => some (⟨offset mode idx, decode w, line⟩ :: rest)
    | _, _ => none

/-- `disassemble(bytes, mode)`: OUT and DIAG of a pass (49_stream_driver.md R190); `none` outside the admitted domain of
10_state.md R27. -/
def disassemble (bytes : List Byte) (mode : OffsetMode) : Option (List OutEntry × List Diag) :=
  if admitted mode bytes.length then
    (entriesFrom mode 0 (windows bytes)).map fun out => (out, startDiag bytes.length)
  else none

end Sys2Proof.Machine
end

