-- ==== Sys2Proof/Machine/Families1To7.lean ====
section
/-! DEFINITION. The meanings of 43_families_1_to_7.md: each emits its record, writes no flag and raises no exception. -/

namespace Sys2Proof.Machine

/-- `JP nnn`: the jump is not taken (R110). -/
def execJp (nnn : Addr) (s : State) : Host.Outcome State Fault Refusal := emit (.jp nnn) s

/-- `CALL nnn`: no call is made (R111). -/
def execCall (nnn : Addr) (s : State) : Host.Outcome State Fault Refusal := emit (.call nnn) s

/-- `SE Vx, byte`: nothing is compared and nothing is skipped (R112). -/
def execSeVxKk (x : Nibble) (kk : Byte) (s : State) : Host.Outcome State Fault Refusal := emit (.seVxKk x kk) s

/-- `SNE Vx, byte`: nothing is skipped (R113). -/
def execSneVxKk (x : Nibble) (kk : Byte) (s : State) : Host.Outcome State Fault Refusal := emit (.sneVxKk x kk) s

/-- `SE Vx, Vy` (R114). -/
def execSeVxVy (x : Nibble) (y : Nibble) (s : State) : Host.Outcome State Fault Refusal := emit (.seVxVy x y) s

/-- `LD Vx, byte`: no register is loaded (R115). -/
def execLdVxKk (x : Nibble) (kk : Byte) (s : State) : Host.Outcome State Fault Refusal := emit (.ldVxKk x kk) s

/-- `ADD Vx, byte`: nothing is added (R116). -/
def execAddVxKk (x : Nibble) (kk : Byte) (s : State) : Host.Outcome State Fault Refusal := emit (.addVxKk x kk) s

end Sys2Proof.Machine
end

