-- ==== Sys2Proof/Machine/Families9ToD.lean ====
section
/-! DEFINITION. The meanings of 45_families_9_to_D.md: each emits its record, writes no flag and raises no exception. -/

namespace Sys2Proof.Machine

/-- `SNE Vx, Vy`: nothing is skipped (R135). -/
def execSneVxVy (x : Nibble) (y : Nibble) (s : State) : Host.Outcome State Fault Refusal := emit (.sneVxVy x y) s

/-- `LD I, nnn`: no index register exists (R136). -/
def execLdINnn (nnn : Addr) (s : State) : Host.Outcome State Fault Refusal := emit (.ldINnn nnn) s

/-- `JP V0, nnn`: the jump is not taken (R137). -/
def execJpV0Nnn (nnn : Addr) (s : State) : Host.Outcome State Fault Refusal := emit (.jpV0Nnn nnn) s

/-- `RND Vx, byte`: no random number is drawn (R138). -/
def execRndVxKk (x : Nibble) (kk : Byte) (s : State) : Host.Outcome State Fault Refusal := emit (.rndVxKk x kk) s

/-- `DRW Vx, Vy, n`: nothing is drawn (R139). -/
def execDrw (x : Nibble) (y : Nibble) (n : Nibble) (s : State) : Host.Outcome State Fault Refusal := emit (.drw x y n) s

end Sys2Proof.Machine
end

