-- ==== Sys2Proof/Machine/Family0.lean ====
section
/-! DEFINITION. The meanings of 42_family_0.md: each emits its record, writes no flag and raises no exception. -/

namespace Sys2Proof.Machine

/-- `CLS` (R100). -/
def execCls (s : State) : Host.Outcome State Fault Refusal := emit .cls s

/-- `RET` (R101). -/
def execRet (s : State) : Host.Outcome State Fault Refusal := emit .ret s

/-- `SYS nnn` (R102). -/
def execSys (nnn : Addr) (s : State) : Host.Outcome State Fault Refusal := emit (.sys nnn) s

end Sys2Proof.Machine
end

