-- ==== Sys2Proof/Machine/Family8.lean ====
section
/-! DEFINITION. The meanings of 44_family_8.md: each emits its record, writes no flag and raises no exception. -/

namespace Sys2Proof.Machine

/-- `LD Vx, Vy`: no register is copied (R121). -/
def execLdVxVy (x : Nibble) (y : Nibble) (s : State) : Host.Outcome State Fault Refusal := emit (.ldVxVy x y) s

/-- `OR Vx, Vy`: nothing is computed (R122). -/
def execOrVxVy (x : Nibble) (y : Nibble) (s : State) : Host.Outcome State Fault Refusal := emit (.orVxVy x y) s

/-- `AND Vx, Vy`: nothing is computed (R123). -/
def execAndVxVy (x : Nibble) (y : Nibble) (s : State) : Host.Outcome State Fault Refusal := emit (.andVxVy x y) s

/-- `XOR Vx, Vy`: nothing is computed (R124). -/
def execXorVxVy (x : Nibble) (y : Nibble) (s : State) : Host.Outcome State Fault Refusal := emit (.xorVxVy x y) s

/-- `ADD Vx, Vy`: no carry into `VF`, nothing is added (R125). -/
def execAddVxVy (x : Nibble) (y : Nibble) (s : State) : Host.Outcome State Fault Refusal := emit (.addVxVy x y) s

/-- `SUB Vx, Vy`: nothing is subtracted (R126). -/
def execSubVxVy (x : Nibble) (y : Nibble) (s : State) : Host.Outcome State Fault Refusal := emit (.subVxVy x y) s

/-- `SHR Vx`: nothing is shifted (R127). -/
def execShrVx (x : Nibble) (s : State) : Host.Outcome State Fault Refusal := emit (.shrVx x) s

/-- `SUBN Vx, Vy`: the operands are not swapped (R128). -/
def execSubnVxVy (x : Nibble) (y : Nibble) (s : State) : Host.Outcome State Fault Refusal := emit (.subnVxVy x y) s

/-- `SHL Vx`: nothing is shifted (R129). -/
def execShlVx (x : Nibble) (s : State) : Host.Outcome State Fault Refusal := emit (.shlVx x) s

end Sys2Proof.Machine
end

