-- ==== Sys2Proof/Machine/FamilyE.lean ====
section
/-! DEFINITION. The meanings of 46_family_E.md: each emits its record, writes no flag and raises no exception. -/

namespace Sys2Proof.Machine

/-- `SKP Vx`: no key is read and nothing is skipped (R145). -/
def execSkp (x : Nibble) (s : State) : Host.Outcome State Fault Refusal := emit (.skp x) s

/-- `SKNP Vx` (R146). -/
def execSknp (x : Nibble) (s : State) : Host.Outcome State Fault Refusal := emit (.sknp x) s

end Sys2Proof.Machine
end

