-- ==== Sys2Proof/Machine/FamilyF.lean ====
section
/-! DEFINITION. The meanings of 47_family_F.md: each emits its record, writes no flag and raises no exception. -/

namespace Sys2Proof.Machine

/-- `LD Vx, DT`: no timer is read (R151). -/
def execLdVxDt (x : Nibble) (s : State) : Host.Outcome State Fault Refusal := emit (.ldVxDt x) s

/-- `LD Vx, K`: the block does not wait for a key (R152). -/
def execLdVxK (x : Nibble) (s : State) : Host.Outcome State Fault Refusal := emit (.ldVxK x) s

/-- `LD DT, Vx`: no timer is written (R153). -/
def execLdDtVx (x : Nibble) (s : State) : Host.Outcome State Fault Refusal := emit (.ldDtVx x) s

/-- `LD ST, Vx`: no timer is written (R154). -/
def execLdStVx (x : Nibble) (s : State) : Host.Outcome State Fault Refusal := emit (.ldStVx x) s

/-- `ADD I, Vx`: nothing is added (R155). -/
def execAddIVx (x : Nibble) (s : State) : Host.Outcome State Fault Refusal := emit (.addIVx x) s

/-- `LD F, Vx` (R156). -/
def execLdFVx (x : Nibble) (s : State) : Host.Outcome State Fault Refusal := emit (.ldFVx x) s

/-- `LD B, Vx`: no BCD conversion is made and no memory is written (R157). -/
def execLdBVx (x : Nibble) (s : State) : Host.Outcome State Fault Refusal := emit (.ldBVx x) s

/-- `LD [I], Vx`: no memory is written (R158). -/
def execLdMiVx (x : Nibble) (s : State) : Host.Outcome State Fault Refusal := emit (.ldMiVx x) s

/-- `LD Vx, [I]`: no memory is read but the word itself (R159). -/
def execLdVxMi (x : Nibble) (s : State) : Host.Outcome State Fault Refusal := emit (.ldVxMi x) s

end Sys2Proof.Machine
end

