-- ==== Sys2Proof/Machine/Invalid.lean ====
section
/-! DEFINITION. The meanings of 41_dispatch.md: each emits its record, writes no flag and raises no exception. -/

namespace Sys2Proof.Machine

/-- `Invalid`: an illegal word "counts as one instruction"; its record is data, not an exception (R94). -/
def execInvalid (opcode : Word) (s : State) : Host.Outcome State Fault Refusal := emit (.invalid opcode) s

end Sys2Proof.Machine
end

