-- ==== Sys2Proof/Machine/Step.lean ====
section
/-! DEFINITION. One step of the machine: one step of SD (49_stream_driver.md R193), fetch, decode, and the meaning of the record. -/

namespace Sys2Proof.Machine

/-- "Enabled exactly when `phase = Running`" (49_stream_driver.md R193); elsewhere there is no step (R195; log 5). -/
def step (s : State) : Host.Outcome State Fault Refusal :=
  if s.phase = .running then
    match s.fetch with
    | .ok w => exec (decode w) s
    | .error r => .refused r
  else .refused .notRunning

/-- The state in which the very next step fetches and runs the word whose bits are `w`: it stands for the host's set-up of the
window and START (log 4). -/
def State.withFetchWord (s : State) (nbits w : Nat) : State := s.withWindow (tableWord nbits w)

end Sys2Proof.Machine
end

