-- ==== Sys2Proof/Safety.lean ====
section
/-! DEFINITION. The terms claims are stated in: the reachable states, the invariant of a pass and of the whole machine, the
explicit next state and line a rule gives, and the alphabet of 48_renderer.md R171. The explicit forms are written from the
rules again, not by calling the renderer or the driver, so that a claim compares two readings of the spec. -/

namespace Sys2Proof.Machine

/-! ## Reachable states -/

/-- The states the host and SD can bring about. Before the first START `idx`, OUT and DIAG are "any value" (10_state.md R33,
93_implementation_defined.md U8; log 13), and so are the host's parameters. -/
inductive Reachable : State → Prop where
  | powerOn (s : State) (hp : s.phase = .idle) (hm : s.ibuf.wf) : Reachable s
  | host {s t : State} (m : HostMove) (hs : Reachable s) (ht : hostMove m s = .next t) : Reachable t
  | step {s t : State} (hs : Reachable s) (ht : Sys2Proof.Machine.step s = .next t) : Reachable t

/-! ## What a rule says of a line and of a next state -/

/-- The admitted domain with the numbers of 10_state.md R27: "`N <= 65537` for `ByteOffset` and `N <= 65025` for
`AddressOffset`", every `N` in mode None. -/
def LenAdmitted : OffsetMode → Nat → Prop
  | .none, _ => True
  | .byteOffset, n => n ≤ 65537
  | .addressOffset, n => n ≤ 65025

/-- The three lines of 10_state.md R23. -/
def offsetAt : OffsetMode → Nat → Option Nat
  | .none, _ => none
  | .byteOffset, idx => some (0 + idx)
  | .addressOffset, idx => some (0x200 + idx)

/-- The prefix of the line of the window at `idx` (48_renderer.md R169 with 10_state.md R23). -/
def prefixAt : OffsetMode → Nat → Text
  | .none, _ => []
  | .byteOffset, idx => ['0', 'x'] ++ hexU idx 2 ++ ['\t']
  | .addressOffset, idx => ['0', 'x'] ++ hexU (0x200 + idx) 3 ++ ['\t']

/-- The line of the window at `idx` whose text is `txt` (48_renderer.md R165). -/
def lineAt (mode : OffsetMode) (idx : Nat) (txt : Text) : Text := prefixAt mode idx ++ txt ++ ['\n']

/-- The state after the step that emits `i` with text `txt`: one entry more in OUT, `idx` 2 further, the phase of
49_stream_driver.md R193, every other field as before. -/
def afterWord (s : State) (i : Instr) (txt : Text) : State where
  phase := if s.idx + 2 = 2 * (s.len / 2) then .done else .running
  idx := s.idx + 2
  out := s.out ++ [⟨offsetAt s.mode s.idx, i, lineAt s.mode s.idx txt⟩]
  diag := s.diag
  mode := s.mode
  len := s.len
  ibuf := s.ibuf

/-- What an instruction rule says a record does: in every state whose LEN is in the admitted domain it completes with the
line of its text, no flag and no exception. -/
def Emits (i : Instr) (txt : Text) : Prop :=
  ∀ s : State, LenAdmitted s.mode s.len → exec i s = .next (afterWord s i txt)

/-- An instruction rule's tag, format, text and effect (the template of 42_family_0.md). -/
def RuleOf (i : Instr) (tag : Nat) (format : Format) (txt : Text) : Prop :=
  i.tag = tag ∧ i.format = format ∧ text i = txt ∧ Emits i txt

/-! ## Invariants -/

/-- What holds from START to the end of a pass, as long as the host leaves its parameters alone. -/
structure PassInv (s : State) : Prop where
  /-- IBUF is in canonical form -/
  memory : s.ibuf.wf
  /-- R27 -/
  domain : LenAdmitted s.mode s.len
  /-- R234, R28: a byte stands at every index below LEN -/
  present : ∀ a, a < s.len → s.ibuf.read a ≠ none
  /-- one entry for each window passed: `idx` is even (R22) and OUT has `idx / 2` entries (R29) -/
  index : s.idx = 2 * s.out.length
  /-- R22, R24 -/
  running : s.phase = .running ↔ s.idx < 2 * (s.len / 2)
  /-- R24, R195 -/
  done : s.phase = .done ↔ s.idx = 2 * (s.len / 2)
  /-- R197; the order is decision D11 of the spec (log 20) -/
  diagnostics : s.diag = .byteCount s.len :: (if s.len % 2 = 1 then [.malformedLength] else [])
  /-- R29: entry `k` is the triple of the word at byte index `2*k` -/
  entries : ∀ k e, s.out[k]? = some e → ∃ b0 b1, s.ibuf.read (2 * k) = some b0 ∧ s.ibuf.read (2 * k + 1) = some b1 ∧
    e = ⟨offsetAt s.mode (2 * k), decode (wordOf b0 b1), lineAt s.mode (2 * k) (text (decode (wordOf b0 b1)))⟩

/-- What holds of every reachable state: IBUF is canonical, a running pass has its invariant, and a finished pass holds a
complete result for the LEN it was started with. -/
structure MachineInv (s : State) : Prop where
  memory : s.ibuf.wf
  running : s.phase = .running → PassInv s
  done : s.phase = .done → s.idx = 2 * s.out.length ∧
    ∃ n, s.idx = 2 * (n / 2) ∧ s.diag = .byteCount n :: (if n % 2 = 1 then [.malformedLength] else [])

/-! ## Numerals and characters -/

/-- The value of a hex digit character. -/
def digitValue (c : Char) : Nat := "0123456789ABCDEF".toList.idxOf c

/-- The number a string of hex digits denotes, most significant digit first. -/
def numeralValue (t : Text) : Nat := t.foldl (fun acc c => 16 * acc + digitValue c) 0

/-- The 49 characters of 48_renderer.md R171. -/
def alphabet : Text :=
  "ABCDEFHIJKLNOPRSTUVWXY".toList ++ "acdeilnopvx".toList ++ "0123456789".toList ++ [' ', ',', '[', ']'] ++ ['\t', '\n']

end Sys2Proof.Machine
end

