-- ==== Sys2Proof/Certificates/Slice0/Obligations.lean ====
section
/-! DEFINITION. The statements for the provers. A docstring names the rule of spec/ a statement formalises; where a
clause rests on a choice of the model or on an inference or decision of the spec, it says so and names it. -/

open Sys2Proof Sys2Proof.Machine

/-! ## FX and DEC -/

/-- The words the source names in numbers (95_test_vectors.md S1 to S6, S8, S9, S14). It prints the records of all but 0x8128, which the
reference drops silently; that 0x8128 gives `INVALID` is decision D1 of the spec (R93, log 16). -/
def Obligations.PrintedWordsDecode : Prop :=
  decode 0x00E0 = .cls ∧ decode 0x00EE = .ret ∧ decode 0x1ABC = .jp 0xABC ∧ decode 0x6A12 = .ldVxKk 0xA 0x12 ∧
    decode 0x8120 = .ldVxVy 0x1 0x2 ∧ decode 0xD012 = .drw 0x0 0x1 0x2 ∧ decode 0xA234 = .ldINnn 0x234 ∧
    decode 0x1234 = .jp 0x234 ∧ decode 0x8128 = .invalid 0x8128

/-- R81 to R86: each field is the shift and mask the source prints, with the examples of those rules. -/
def Obligations.FieldsAreShiftsAndMasks : Prop :=
  (∀ w : Word,
    (fields w).op.toNat = w.toNat >>> 12 ∧
    (fields w).x.toNat = (w.toNat >>> 8) &&& 0xF ∧
    (fields w).y.toNat = (w.toNat >>> 4) &&& 0xF ∧
    (fields w).kk.toNat = w.toNat &&& 0xFF ∧
    (fields w).nnn.toNat = w.toNat &&& 0xFFF ∧
    (fields w).n.toNat = w.toNat &&& 0xF) ∧
  (fields 0xD012).op = 0xD ∧ (fields 0x6A12).x = 0xA ∧ (fields 0x8120).y = 2 ∧ (fields 0x6A12).kk = 0x12 ∧
  (fields 0x1ABC).nnn = 0xABC ∧ (fields 0xD012).n = 2

/-- R87 (an inference of the spec from R81 to R86): the four equations, and FX loses no bit. -/
def Obligations.FieldsDetermineTheWord : Prop :=
  (∀ w : Word,
    w.toNat = 4096 * (fields w).op.toNat + (fields w).nnn.toNat ∧
    (fields w).nnn.toNat = 256 * (fields w).x.toNat + (fields w).kk.toNat ∧
    (fields w).kk.toNat = 16 * (fields w).y.toNat + (fields w).n.toNat ∧
    w.toNat = 4096 * (fields w).op.toNat + 256 * (fields w).x.toNat + 16 * (fields w).y.toNat + (fields w).n.toNat) ∧
  Function.Bijective fun w : Word => ((fields w).op, (fields w).x, (fields w).y, (fields w).n)

/-- R42: the byte at the lower index supplies bits 15:8, in every mode and at every window. -/
def Obligations.FetchIsBigEndian : Prop :=
  (∀ b0 b1 : Byte, (wordOf b0 b1).toNat = 256 * b0.toNat + b1.toNat) ∧
  (∀ (s : State) (b0 b1 : Byte), s.idx + 2 ≤ s.len → s.ibuf.read s.idx = some b0 → s.ibuf.read (s.idx + 1) = some b1 →
    ∃ w : Word, s.fetch = .ok w ∧ w.toNat = 256 * b0.toNat + b1.toNat) ∧
  wordOf 0xA2 0x34 = 0xA234

/-- Every word decodes, to a record that R66 allows, and the record is `INVALID` only from families 8 and F (R90, and R95, an
inference of the spec). -/
def Obligations.EveryWordDecodesWellFormed : Prop :=
  ∀ w : Word, (decode w).wellFormed = true ∧ (decode w).tag ≤ 35 ∧
    ((decode w).tag = 35 → (fields w).op = 0x8 ∨ (fields w).op = 0xF)

/-- R67: the first row of the 37-row table that fits a word gives its record, tag and format; some row always fits. -/
def Obligations.FirstMatchTableIsTheDecoder : Prop :=
  opcodeTable.map (·.priority) = (List.range 37).map (· + 1) ∧
  ∀ w : Word, ∃ r, firstRow w = some r ∧ r.fits w = true ∧ r.build w (fields w) = decode w ∧ r.tag = (decode w).tag ∧
    r.format = (decode w).format ∧ tableDecode w = some (decode w)

/-- The column "words" of R66 (an inference of the spec) for four cases that no single pattern selects. -/
def Obligations.WordsPerCase : Prop :=
  (Finset.univ.filter fun w : Word => (decode w).tag = 2).card = 4094 ∧
  (Finset.univ.filter fun w : Word => (decode w).tag = 25).card = 4080 ∧
  (Finset.univ.filter fun w : Word => (decode w).tag = 18).card = 256 ∧
  (Finset.univ.filter fun w : Word => (decode w).tag = 35).card = 1792 + 3952

/-- Decoding the encoding of any record DEC can produce gives it back, from the word and from the bytes, with the bytes that
follow untouched. The bits DEC drops are the encoder's choice (log 10). -/
def Obligations.DecodeOfEncode : Prop :=
  ∀ i : Instr, i.wellFormed = true →
    decode (encode i) = i ∧ ∀ rest : List Byte, decodeBytes (encodeBytes i ++ rest) = .ok (i, rest)

/-- R96: exactly five cases drop bits, each as the rule says; every other record determines its word. The dropped fields are
decision D13 of the spec. -/
def Obligations.OnlyFiveCasesDropBits : Prop :=
  (∀ w w' : Word, decode w = decode w' → w = w' ∨ (decode w).tag ∈ [7, 16, 18, 19, 25]) ∧
  (∀ w : Word, (decode w).tag ∉ [7, 16, 18, 19, 25] → encode (decode w) = w) ∧
  (∀ x y y' n n' : Nibble,
    decode (0x8#4 ++ x ++ y ++ 0x6#4) = decode (0x8#4 ++ x ++ y' ++ 0x6#4) ∧
    decode (0x8#4 ++ x ++ y ++ 0xE#4) = decode (0x8#4 ++ x ++ y' ++ 0xE#4) ∧
    decode (0x5#4 ++ x ++ y ++ n) = decode (0x5#4 ++ x ++ y ++ n') ∧
    decode (0x9#4 ++ x ++ y ++ n) = decode (0x9#4 ++ x ++ y ++ n')) ∧
  (∀ (x : Nibble) (k k' : Byte), k ≠ 0x9E → k' ≠ 0x9E → decode (0xE#4 ++ x ++ k) = decode (0xE#4 ++ x ++ k')) ∧
  decode 0x8126 = .shrVx 1 ∧ decode 0x8136 = .shrVx 1

/-- R72: which cases share a mnemonic. -/
def Obligations.MnemonicsSpellSeveralCases : Prop :=
  (opcodeTable.filter (·.mnemonic == "SE")).map (·.tag) = [5, 7] ∧
  (opcodeTable.filter (·.mnemonic == "SNE")).map (·.tag) = [6, 19] ∧
  (opcodeTable.filter (·.mnemonic == "JP")).map (·.tag) = [3, 21] ∧
  (opcodeTable.filter (·.mnemonic == "ADD")).map (·.tag) = [9, 14, 30] ∧
  (opcodeTable.filter (·.mnemonic == "LD")).map (·.tag) = [8, 10, 20, 26, 27, 28, 29, 31, 32, 33, 34]

/-! ## The instructions, family by family

Each says which words give the record (and no others), its tag, format and text, and that it completes, in every state whose
LEN is in the admitted domain, with exactly the next state `afterWord` writes out: one entry more in OUT, `idx` 2
further, DIAG, MODE, LEN and IBUF as before. -/

/-- R100, R101, R102. -/
def Obligations.Family0Rules : Prop :=
  (∀ w : Word, decode w = .cls ↔ w = 0x00E0#16) ∧
  (∀ w : Word, decode w = .ret ↔ w = 0x00EE#16) ∧
  (∀ (w : Word) (nnn : Addr), decode w = .sys nnn ↔ w = 0x0#4 ++ nnn ∧ w ≠ 0x00E0#16 ∧ w ≠ 0x00EE#16) ∧
  RuleOf .cls 0 .fixed ['C', 'L', 'S', ' '] ∧
  RuleOf .ret 1 .fixed ['R', 'E', 'T', ' '] ∧
  (∀ nnn, RuleOf (.sys nnn) 2 .nnn ("SYS 0x".toList ++ hexU nnn.toNat 3)) ∧
  decode 0x00E1 = .sys 0x0E1 ∧ decode 0x00EF = .sys 0x0EF ∧ decode 0x01E0 = .sys 0x1E0 ∧ decode 0x0E00 = .sys 0xE00 ∧
  decode 0x10E0 = .jp 0x0E0 ∧ decode 0x0000 = .sys 0 ∧ text (.sys 0) = "SYS 0x000".toList ∧
  decode 0x0120 = .sys 0x120 ∧ text (.sys 0x120) = "SYS 0x120".toList

/-- R110 to R116. The nibbles 2, 3, 4, 5, 7 are decision D2 of the spec, the ignored `n` of family 5 is D5. -/
def Obligations.Families1To7Rules : Prop :=
  (∀ (w : Word) (nnn : Addr), decode w = .jp nnn ↔ w = 0x1#4 ++ nnn) ∧
  (∀ (w : Word) (nnn : Addr), decode w = .call nnn ↔ w = 0x2#4 ++ nnn) ∧
  (∀ (w : Word) (x : Nibble) (kk : Byte), decode w = .seVxKk x kk ↔ w = 0x3#4 ++ x ++ kk) ∧
  (∀ (w : Word) (x : Nibble) (kk : Byte), decode w = .sneVxKk x kk ↔ w = 0x4#4 ++ x ++ kk) ∧
  (∀ (w : Word) (x y : Nibble), decode w = .seVxVy x y ↔ ∃ n : Nibble, w = 0x5#4 ++ x ++ y ++ n) ∧
  (∀ (w : Word) (x : Nibble) (kk : Byte), decode w = .ldVxKk x kk ↔ w = 0x6#4 ++ x ++ kk) ∧
  (∀ (w : Word) (x : Nibble) (kk : Byte), decode w = .addVxKk x kk ↔ w = 0x7#4 ++ x ++ kk) ∧
  (∀ nnn, RuleOf (.jp nnn) 3 .nnn ("JP 0x".toList ++ hexU nnn.toNat 3)) ∧
  (∀ nnn, RuleOf (.call nnn) 4 .nnn ("CALL 0x".toList ++ hexU nnn.toNat 3)) ∧
  (∀ x kk, RuleOf (.seVxKk x kk) 5 .xkk ("SE V".toList ++ hexU x.toNat 1 ++ ", 0x".toList ++ hexU kk.toNat 2)) ∧
  (∀ x kk, RuleOf (.sneVxKk x kk) 6 .xkk ("SNE V".toList ++ hexU x.toNat 1 ++ ", 0x".toList ++ hexU kk.toNat 2)) ∧
  (∀ x y, RuleOf (.seVxVy x y) 7 .xy ("SE V".toList ++ hexU x.toNat 1 ++ ", V".toList ++ hexU y.toNat 1)) ∧
  (∀ x kk, RuleOf (.ldVxKk x kk) 8 .xkk ("LD V".toList ++ hexU x.toNat 1 ++ ", 0x".toList ++ hexU kk.toNat 2)) ∧
  (∀ x kk, RuleOf (.addVxKk x kk) 9 .xkk ("ADD V".toList ++ hexU x.toNat 1 ++ ", 0x".toList ++ hexU kk.toNat 2))

/-- R120 to R129. The values of `n` other than 0 are decision D3 of the spec, the dropped `y` is D13. -/
def Obligations.Family8Rules : Prop :=
  (∀ (w : Word) (x y : Nibble), decode w = .ldVxVy x y ↔ w = 0x8#4 ++ x ++ y ++ 0x0#4) ∧
  (∀ (w : Word) (x y : Nibble), decode w = .orVxVy x y ↔ w = 0x8#4 ++ x ++ y ++ 0x1#4) ∧
  (∀ (w : Word) (x y : Nibble), decode w = .andVxVy x y ↔ w = 0x8#4 ++ x ++ y ++ 0x2#4) ∧
  (∀ (w : Word) (x y : Nibble), decode w = .xorVxVy x y ↔ w = 0x8#4 ++ x ++ y ++ 0x3#4) ∧
  (∀ (w : Word) (x y : Nibble), decode w = .addVxVy x y ↔ w = 0x8#4 ++ x ++ y ++ 0x4#4) ∧
  (∀ (w : Word) (x y : Nibble), decode w = .subVxVy x y ↔ w = 0x8#4 ++ x ++ y ++ 0x5#4) ∧
  (∀ (w : Word) (x : Nibble), decode w = .shrVx x ↔ ∃ y : Nibble, w = 0x8#4 ++ x ++ y ++ 0x6#4) ∧
  (∀ (w : Word) (x y : Nibble), decode w = .subnVxVy x y ↔ w = 0x8#4 ++ x ++ y ++ 0x7#4) ∧
  (∀ (w : Word) (x : Nibble), decode w = .shlVx x ↔ ∃ y : Nibble, w = 0x8#4 ++ x ++ y ++ 0xE#4) ∧
  (∀ x y, RuleOf (.ldVxVy x y) 10 .xy ("LD V".toList ++ hexU x.toNat 1 ++ ", V".toList ++ hexU y.toNat 1)) ∧
  (∀ x y, RuleOf (.orVxVy x y) 11 .xy ("OR V".toList ++ hexU x.toNat 1 ++ ", V".toList ++ hexU y.toNat 1)) ∧
  (∀ x y, RuleOf (.andVxVy x y) 12 .xy ("AND V".toList ++ hexU x.toNat 1 ++ ", V".toList ++ hexU y.toNat 1)) ∧
  (∀ x y, RuleOf (.xorVxVy x y) 13 .xy ("XOR V".toList ++ hexU x.toNat 1 ++ ", V".toList ++ hexU y.toNat 1)) ∧
  (∀ x y, RuleOf (.addVxVy x y) 14 .xy ("ADD V".toList ++ hexU x.toNat 1 ++ ", V".toList ++ hexU y.toNat 1)) ∧
  (∀ x y, RuleOf (.subVxVy x y) 15 .xy ("SUB V".toList ++ hexU x.toNat 1 ++ ", V".toList ++ hexU y.toNat 1)) ∧
  (∀ x, RuleOf (.shrVx x) 16 .xy ("SHR V".toList ++ hexU x.toNat 1)) ∧
  (∀ x y, RuleOf (.subnVxVy x y) 17 .xy ("SUBN V".toList ++ hexU x.toNat 1 ++ ", V".toList ++ hexU y.toNat 1)) ∧
  (∀ x, RuleOf (.shlVx x) 18 .xy ("SHL V".toList ++ hexU x.toNat 1))

/-- R135 to R139. The nibbles 9, 0xB, 0xC are decision D2 of the spec, the ignored `n` of family 9 is D5. -/
def Obligations.Families9ToDRules : Prop :=
  (∀ (w : Word) (x y : Nibble), decode w = .sneVxVy x y ↔ ∃ n : Nibble, w = 0x9#4 ++ x ++ y ++ n) ∧
  (∀ (w : Word) (nnn : Addr), decode w = .ldINnn nnn ↔ w = 0xA#4 ++ nnn) ∧
  (∀ (w : Word) (nnn : Addr), decode w = .jpV0Nnn nnn ↔ w = 0xB#4 ++ nnn) ∧
  (∀ (w : Word) (x : Nibble) (kk : Byte), decode w = .rndVxKk x kk ↔ w = 0xC#4 ++ x ++ kk) ∧
  (∀ (w : Word) (x y n : Nibble), decode w = .drw x y n ↔ w = 0xD#4 ++ x ++ y ++ n) ∧
  (∀ x y, RuleOf (.sneVxVy x y) 19 .xy ("SNE V".toList ++ hexU x.toNat 1 ++ ", V".toList ++ hexU y.toNat 1)) ∧
  (∀ nnn, RuleOf (.ldINnn nnn) 20 .nnn ("LD I, 0x".toList ++ hexU nnn.toNat 3)) ∧
  (∀ nnn, RuleOf (.jpV0Nnn nnn) 21 .nnn ("JP V0, 0x".toList ++ hexU nnn.toNat 3)) ∧
  (∀ x kk, RuleOf (.rndVxKk x kk) 22 .xkk ("RND V".toList ++ hexU x.toNat 1 ++ ", 0x".toList ++ hexU kk.toNat 2)) ∧
  (∀ x y n, RuleOf (.drw x y n) 23 .xyn
    ("DRW V".toList ++ hexU x.toNat 1 ++ ", V".toList ++ hexU y.toNat 1 ++ ", 0x".toList ++ hexU n.toNat 1))

/-- R145, R146. That the record of `SKNP` does not keep `kk` is decision D13 of the spec. -/
def Obligations.FamilyERules : Prop :=
  (∀ (w : Word) (x : Nibble), decode w = .skp x ↔ w = 0xE#4 ++ x ++ 0x9E#8) ∧
  (∀ (w : Word) (x : Nibble), decode w = .sknp x ↔ ∃ kk : Byte, kk ≠ 0x9E ∧ w = 0xE#4 ++ x ++ kk) ∧
  (∀ x, RuleOf (.skp x) 24 .xsub ("SKP V".toList ++ hexU x.toNat 1)) ∧
  (∀ x, RuleOf (.sknp x) 25 .xsub ("SKNP V".toList ++ hexU x.toNat 1)) ∧
  decode 0xE19F = .sknp 1 ∧ decode 0xE18E = .sknp 1 ∧ decode 0xE19E = .skp 1 ∧ decode 0xE1A1 = .sknp 1 ∧
  decode 0xE100 = .sknp 1

/-- R150 to R159. The nine values of `kk` are decision D4 of the spec. -/
def Obligations.FamilyFRules : Prop :=
  (∀ (w : Word) (x : Nibble), decode w = .ldVxDt x ↔ w = 0xF#4 ++ x ++ 0x07#8) ∧
  (∀ (w : Word) (x : Nibble), decode w = .ldVxK x ↔ w = 0xF#4 ++ x ++ 0x0A#8) ∧
  (∀ (w : Word) (x : Nibble), decode w = .ldDtVx x ↔ w = 0xF#4 ++ x ++ 0x15#8) ∧
  (∀ (w : Word) (x : Nibble), decode w = .ldStVx x ↔ w = 0xF#4 ++ x ++ 0x18#8) ∧
  (∀ (w : Word) (x : Nibble), decode w = .addIVx x ↔ w = 0xF#4 ++ x ++ 0x1E#8) ∧
  (∀ (w : Word) (x : Nibble), decode w = .ldFVx x ↔ w = 0xF#4 ++ x ++ 0x29#8) ∧
  (∀ (w : Word) (x : Nibble), decode w = .ldBVx x ↔ w = 0xF#4 ++ x ++ 0x33#8) ∧
  (∀ (w : Word) (x : Nibble), decode w = .ldMiVx x ↔ w = 0xF#4 ++ x ++ 0x55#8) ∧
  (∀ (w : Word) (x : Nibble), decode w = .ldVxMi x ↔ w = 0xF#4 ++ x ++ 0x65#8) ∧
  (∀ x, RuleOf (.ldVxDt x) 26 .xsub ("LD V".toList ++ hexU x.toNat 1 ++ ", DT".toList)) ∧
  (∀ x, RuleOf (.ldVxK x) 27 .xsub ("LD V".toList ++ hexU x.toNat 1 ++ ", K".toList)) ∧
  (∀ x, RuleOf (.ldDtVx x) 28 .xsub ("LD DT, V".toList ++ hexU x.toNat 1)) ∧
  (∀ x, RuleOf (.ldStVx x) 29 .xsub ("LD ST, V".toList ++ hexU x.toNat 1)) ∧
  (∀ x, RuleOf (.addIVx x) 30 .xsub ("ADD I, V".toList ++ hexU x.toNat 1)) ∧
  (∀ x, RuleOf (.ldFVx x) 31 .xsub ("LD F, V".toList ++ hexU x.toNat 1)) ∧
  (∀ x, RuleOf (.ldBVx x) 32 .xsub ("LD B, V".toList ++ hexU x.toNat 1)) ∧
  (∀ x, RuleOf (.ldMiVx x) 33 .xsub ("LD [I], V".toList ++ hexU x.toNat 1)) ∧
  (∀ x, RuleOf (.ldVxMi x) 34 .xsub ("LD V".toList ++ hexU x.toNat 1 ++ ", [I]".toList))

/-- R94, R130, R160, and R213's record. That the block emits it at all is decision D1 of the spec. -/
def Obligations.InvalidRules : Prop :=
  (∀ w v : Word, decode w = .invalid v ↔ v = w ∧
    ((w.toNat / 4096 = 8 ∧ w.toNat % 16 ∈ [0x8, 0x9, 0xA, 0xB, 0xC, 0xD, 0xF]) ∨
     (w.toNat / 4096 = 0xF ∧ w.toNat % 256 ∉ [0x07, 0x0A, 0x15, 0x18, 0x1E, 0x29, 0x33, 0x55, 0x65]))) ∧
  (∀ w : Word, (Instr.invalid w).tag = 35 ∧ text (.invalid w) = "Invalid Opcode 0x".toList ++ hexU w.toNat 4 ∧
    Emits (.invalid w) ("Invalid Opcode 0x".toList ++ hexU w.toNat 4)) ∧
  (∀ i : Instr, recordClass i = some .unrecognizedOpcode ↔ i.tag = 35) ∧
  decode 0x8128 = .invalid 0x8128 ∧ text (.invalid 0x8128) = "Invalid Opcode 0x8128".toList ∧
  decode 0xFFFF = .invalid 0xFFFF ∧ text (.invalid 0xFFFF) = "Invalid Opcode 0xFFFF".toList

/-! ## A step -/

/-- When the two bytes at `idx` of a running pass make a word, the step is the meaning of the record that word decodes to,
at the same state; the meaning itself moves `idx`. -/
def Obligations.StepRunsTheDecodedInstruction : Prop :=
  ∀ (s : State) (b0 b1 : Byte) (rest : List Byte) (i : Instr), s.phase = .running → s.idx + 2 ≤ s.len →
    s.ibuf.read s.idx = some b0 → s.ibuf.read (s.idx + 1) = some b1 → decodeBytes (b0 :: b1 :: rest) = .ok (i, rest) →
    step s = exec i s

/-- R193: a step of a running pass does exactly this, whatever the word; there is no step in another phase; and in a running
state the host and SD can bring about, a whole window is left. -/
def Obligations.StepEffect : Prop :=
  (∀ (s : State) (b0 b1 : Byte), s.phase = .running → LenAdmitted s.mode s.len → s.idx + 2 ≤ s.len →
    s.ibuf.read s.idx = some b0 → s.ibuf.read (s.idx + 1) = some b1 →
    step s = .next { s with
      out := s.out ++ [⟨offsetAt s.mode s.idx, decode (wordOf b0 b1),
        lineAt s.mode s.idx (text (decode (wordOf b0 b1)))⟩]
      idx := s.idx + 2
      phase := if s.idx + 2 = 2 * (s.len / 2) then .done else .running }) ∧
  (∀ s : State, s.phase ≠ .running → ∀ t, step s ≠ .next t) ∧
  (∀ s : State, Reachable s → s.phase = .running → s.idx + 2 ≤ 2 * (s.len / 2))

/-- When a step is taken, and what is refused otherwise: outside Running (R193, R195), where MemRead is not defined (R41), where a
byte is missing (R234, an inference of the spec), and outside the admitted domain (R27). The names of the refusals are the model's. -/
def Obligations.StepOutcomes : Prop :=
  ∀ s : State,
    (s.phase ≠ .running → step s = .refused .notRunning) ∧
    (s.phase = .running → s.len < s.idx + 2 → step s = .refused .readOutsideBuffer) ∧
    (s.phase = .running → s.idx + 2 ≤ s.len →
      s.ibuf.read s.idx = none ∨ s.ibuf.read (s.idx + 1) = none → step s = .refused .byteNotPresent) ∧
    (s.phase = .running → s.idx + 2 ≤ s.len → s.ibuf.read s.idx ≠ none → s.ibuf.read (s.idx + 1) ≠ none →
      ((∃ t, step s = .next t) ↔ LenAdmitted s.mode s.len))

/-- The frame of every instruction: DIAG, MODE, LEN and every byte of IBUF are unchanged, the earlier entries of OUT are
unchanged, and `idx` moves by 2 and nothing else (R22, R46, R98). -/
def Obligations.InstructionFrame : Prop :=
  ∀ (i : Instr) (s t : State), exec i s = .next t →
    t.diag = s.diag ∧ t.mode = s.mode ∧ t.len = s.len ∧ (∀ a, t.ibuf.read a = s.ibuf.read a) ∧
    t.idx = s.idx + 2 ∧ t.phase ≠ .idle ∧
    ∃ e, t.out = s.out ++ [e] ∧ e.instr = i ∧ e.offset = offsetAt s.mode s.idx

/-- R213: an illegal word is a record with its line, DIAG and the host's parameters stay, and the pass goes on at the next
window. -/
def Obligations.IllegalWordIsData : Prop :=
  ∀ (s : State) (b0 b1 : Byte), s.phase = .running → LenAdmitted s.mode s.len → s.idx + 2 ≤ s.len →
    s.ibuf.read s.idx = some b0 → s.ibuf.read (s.idx + 1) = some b1 → illegalWord (wordOf b0 b1) = true →
    ∃ t, step s = .next t ∧ t.diag = s.diag ∧ t.idx = s.idx + 2 ∧
      (s.idx + 2 < 2 * (s.len / 2) → t.phase = .running) ∧ t.ibuf = s.ibuf ∧ t.len = s.len ∧ t.mode = s.mode ∧
      t.out = s.out ++ [⟨offsetAt s.mode s.idx, .invalid (wordOf b0 b1),
        lineAt s.mode s.idx ("Invalid Opcode 0x".toList ++ hexU (wordOf b0 b1).toNat 4)⟩] ∧
      recordClass (.invalid (wordOf b0 b1)) = some .unrecognizedOpcode

/-- R193, R199: the record of a step depends on its two bytes, on `idx` and on MODE, and on nothing else of the state. -/
def Obligations.RecordDependsOnTheWindowOnly : Prop :=
  ∀ s s' t t' : State, step s = .next t → step s' = .next t' → s.mode = s'.mode → s.idx = s'.idx →
    s.ibuf.read s.idx = s'.ibuf.read s.idx → s.ibuf.read (s.idx + 1) = s'.ibuf.read (s.idx + 1) →
    t.out.getLast? = t'.out.getLast? ∧ t.out.getLast? ≠ none

/-- R22: START sets `idx` to 0, a step adds 2, no other move of the host changes it, and in every reachable running state it is
even and below the end of the prefix; it never passes `2*floor(LEN/2)` in a pass, and the pass ends there. -/
def Obligations.IdxOnlyMovesByTwo : Prop :=
  (∀ s t : State, hostMove .start s = .next t → t.idx = 0) ∧
  (∀ (s t : State) (m : HostMove), m ≠ .start → hostMove m s = .next t → t.idx = s.idx) ∧
  (∀ s t : State, step s = .next t → t.idx = s.idx + 2) ∧
  (∀ s : State, Reachable s → s.phase = .running → s.idx % 2 = 0 ∧ s.idx < 2 * (s.len / 2)) ∧
  (∀ s t : State, Reachable s → step s = .next t →
    t.idx ≤ 2 * (t.len / 2) ∧ (t.phase = .done ↔ t.idx = 2 * (t.len / 2)))

/-- R194: over any number of steps, whatever the words, the offsets appended are `offset(MODE, idx)`, `offset(MODE, idx + 2)`, …;
from START on, record `k` has offset `2*k` or `0x200 + 2*k`. That None has no offset, which R194 writes out, is decision D8. -/
def Obligations.OffsetsAreArithmetic : Prop :=
  (∀ (k : Nat) (s t : State), Host.Core.run Sys2Proof.core k s = .next t →
    t.idx = s.idx + 2 * k ∧ t.out.length = s.out.length + k ∧
    ∀ j, j < k → (t.out[s.out.length + j]?).map (·.offset) =
      some (match s.mode with
        | .none => none
        | .byteOffset => some (s.idx + 2 * j)
        | .addressOffset => some (0x200 + (s.idx + 2 * j)))) ∧
  (∀ (k : Nat) (s s0 t : State), s.start = .next s0 → Host.Core.run Sys2Proof.core k s0 = .next t →
    t.out.length = k ∧ ∀ j, j < k → (t.out[j]?).map (·.offset) =
      some (match s.mode with
        | .none => none
        | .byteOffset => some (2 * j)
        | .addressOffset => some (0x200 + 2 * j)))

/-- The very next step after `withFetchWord` runs the word placed (the model's own device, log 4), in every state whose LEN then
lies in the admitted domain. -/
def Obligations.WithFetchWordRunsTheWord : Prop :=
  ∀ (s : State) (w : Nat), w < 65536 → LenAdmitted s.mode (max s.len (s.idx + 2)) →
    ∃ t, step (s.withFetchWord 16 w) = .next t ∧ t.idx = s.idx + 2 ∧
      t.out = s.out ++ [⟨offsetAt s.mode s.idx, decode (BitVec.ofNat 16 w),
        lineAt s.mode s.idx (text (decode (BitVec.ofNat 16 w)))⟩] ∧
      decodeTableWord 16 w = some (decode (BitVec.ofNat 16 w))

/-! ## START, reset and the host -/

/-- R191 and the table of R33: START in Idle or Done, with LEN admitted and LEN bytes in place, sets `idx`, OUT, DIAG and phase, from any
values of them, and leaves the host's parameters; in Running it is no move. The order of DIAG is decision D11 of the spec (log 20). -/
def Obligations.StartEffect : Prop :=
  (∀ s : State, s.phase ≠ .running → LenAdmitted s.mode s.len → (∀ a, a < s.len → s.ibuf.read a ≠ none) →
    s.start = .next {
      phase := if s.len / 2 = 0 then .done else .running
      idx := 0
      out := []
      diag := [.byteCount s.len] ++ (if s.len % 2 = 1 then [.malformedLength] else [])
      mode := s.mode
      len := s.len
      ibuf := s.ibuf }) ∧
  (∀ s : State, s.phase = .running → ∀ t, s.start ≠ .next t)

/-- When START is taken: outside Running (R191), for a LEN in the admitted domain (R27, decision D7 of the spec) with a byte at every index
below it; a LEN larger than the memory present is refused at START, odd trailing byte included (R234, an inference of the spec). The
names and the order of the refusals are the model's (logs 1, 7, 8). -/
def Obligations.StartOutcomes : Prop :=
  ∀ s : State,
    ((∃ t, s.start = .next t) ↔
      s.phase ≠ .running ∧ LenAdmitted s.mode s.len ∧ ∀ a, a < s.len → s.ibuf.read a ≠ none) ∧
    (s.phase = .running → s.start = .refused .startWhileRunning) ∧
    (∀ a, s.phase ≠ .running → LenAdmitted s.mode s.len → a < s.len → s.ibuf.read a = none →
      s.start = .refused .byteNotPresent)

/-- The state after reset is what START leaves of an Idle state whose host inputs are the model's choice (logs 2 and 3): no byte,
LEN = 0, MODE = None; the other fields then have the values of R33. -/
def Obligations.ResetIsStartOnTheEmptyInput : Prop :=
  (∀ (idx : Nat) (out : List OutEntry) (diag : List Diag),
    (State.mk .idle idx out diag .none 0 []).start = .next State.reset) ∧
  State.reset.phase = .done ∧ State.reset.idx = 0 ∧ State.reset.out = [] ∧ State.reset.diag = [.byteCount 0]

/-- R192: the warning is decided at START and only there, exactly once for an odd LEN and never for an even one, and changes no
record: a buffer with an odd trailing byte has the OUT of its even prefix. That the notice stands there once and carries the full LEN
(R30, R197) is decision D11 of the spec (log 20). -/
def Obligations.OddLengthWarning : Prop :=
  (∀ s t : State, s.start = .next t →
    t.diag.count .malformedLength = (if s.len % 2 = 1 then 1 else 0) ∧ t.diag.count (.byteCount s.len) = 1 ∧
    ∀ n, n ≠ s.len → Diag.byteCount n ∉ t.diag) ∧
  (∀ s t : State, step s = .next t → t.diag = s.diag) ∧
  (∀ (bytes : List Byte) (b : Byte) (mode : OffsetMode), bytes.length % 2 = 0 →
    (disassemble (bytes ++ [b]) mode).map (·.1) = (disassemble bytes mode).map (·.1))

/-- R235, R236, R224: outside Running the host sets each parameter and changes nothing else; in Running it has no move. That the
moves are refused in Running is the spec's treatment of U6 and U9 (log 7). -/
def Obligations.HostMovesOnlyOutsideRunning : Prop :=
  (∀ (s : State) (m : HostMove) (t : State), s.phase = .running → hostMove m s ≠ .next t) ∧
  (∀ (s : State) (bytes : List Byte) (n : Nat) (mode : OffsetMode), s.phase ≠ .running →
    hostMove (.place bytes) s = .next { s with ibuf := Memory.ofBytes bytes } ∧
    hostMove (.setLen n) s = .next { s with len := n } ∧
    hostMove (.setMode (modeBits mode)) s = .next { s with mode := mode })

/-- R25, R26: the encoding of MODE (decision D9 of the spec); the reserved value 3 is refused in every state (U7, log 8). -/
def Obligations.ModeEncoding : Prop :=
  modeBits .none = 0 ∧ modeBits .byteOffset = 1 ∧ modeBits .addressOffset = 2 ∧
  (∀ m, modeOfBits (modeBits m) = some m) ∧ (∀ b, modeOfBits b = none ↔ b = 3) ∧
  ∀ s : State, hostMove (.setMode 3) s = .refused .reservedMode

/-- R27, R224: outside the admitted domain neither START nor any instruction has a meaning (decision D7 of the spec; the name of the
refusal is the model's, log 8). -/
def Obligations.LenOutsideTheDomainIsRefused : Prop :=
  ∀ s : State, ¬ LenAdmitted s.mode s.len →
    (∀ i : Instr, exec i s = .refused .lenNotAdmitted) ∧
    (s.phase ≠ .running → s.start = .refused .lenNotAdmitted)

/-- R211, R212, R213, R216: the two error classes that reach the core, their codes (decision D12 of the spec) and what reports them. -/
def Obligations.ErrorClasses : Prop :=
  ErrorClass.malformedLength.code = 1 ∧ ErrorClass.unrecognizedOpcode.code = 2 ∧
  diagClass .malformedLength = some .malformedLength ∧ (∀ n, diagClass (.byteCount n) = none) ∧
  ∀ w, recordClass (.invalid w) = some .unrecognizedOpcode

/-! ## IBUF -/

/-- R41 (an inference of the spec): MemRead answers the `n` bytes from an index on, lowest first, exactly where `addr + n <= LEN` and the
bytes are present; two one-byte reads give the same as one of two bytes. -/
def Obligations.MemReadAnswers : Prop :=
  ∀ (s : State) (addr n : Nat) (bs : List Byte),
    (s.memRead addr n = .ok bs ↔ addr + n ≤ s.len ∧ bs.length = n ∧ ∀ j, j < n → s.ibuf.read (addr + j) = bs[j]?) ∧
    (s.len < addr + n → s.memRead addr n = .error .readOutsideBuffer) ∧
    ∀ b0 b1, s.memRead addr 2 = .ok [b0, b1] ↔ s.memRead addr 1 = .ok [b0] ∧ s.memRead (addr + 1) 1 = .ok [b1]

/-- R28: the input placed by the host is read back byte by byte, index 0 first, and no byte stands beyond it. -/
def Obligations.PlacedInputIsReadBack : Prop :=
  ∀ (s t : State) (bytes : List Byte), hostMove (.place bytes) s = .next t → ∀ a, t.ibuf.read a = bytes[a]?

/-- The canonical form of IBUF (the model's, log 1) is kept by every step, every instruction, every host move and every write. -/
def Obligations.MemoryStaysCanonical : Prop :=
  (∀ s t : State, s.ibuf.wf → step s = .next t → t.ibuf.wf) ∧
  (∀ (i : Instr) (s t : State), s.ibuf.wf → exec i s = .next t → t.ibuf.wf) ∧
  (∀ (m : HostMove) (s t : State), s.ibuf.wf → hostMove m s = .next t → t.ibuf.wf) ∧
  (∀ (m : Memory) (a : Nat) (b : Byte), m.wf → (m.write a b).wf)

/-- The canonical form is canonical: memories that read alike are equal (log 1). -/
def Obligations.CanonicalMemoriesAreDeterminedByReads : Prop :=
  ∀ m m' : Memory, m.wf → m'.wf → (∀ a, m.read a = m'.read a) → m = m'

/-! ## Passes -/

/-- The invariant of a pass is kept by every step. The order of DIAG in it is decision D11 of the spec (log 20). -/
def Obligations.StepKeepsPassInv : Prop :=
  ∀ s t : State, PassInv s → step s = .next t → PassInv t

/-- START establishes the invariant of a pass, whatever stood in the state before. The order of DIAG in it is decision D11 (log 20). -/
def Obligations.StartEstablishesPassInv : Prop :=
  ∀ s t : State, s.ibuf.wf → s.start = .next t → PassInv t

/-- R193, "there is no word, no offset within the admitted domain and no MODE for which a step fails": in a running state with the
invariant of a pass, a step is always taken. -/
def Obligations.RunningPassAlwaysSteps : Prop :=
  ∀ s : State, PassInv s → s.phase = .running → ∃ t, step s = .next t ∧ PassInv t

/-- The state after reset has the invariant of a pass and is reachable. -/
def Obligations.ResetHasPassInv : Prop := PassInv State.reset ∧ Reachable State.reset

/-- The machine's invariant is kept by every step and by every move of the host, it holds of every Idle state with a canonical IBUF, and so
of every reachable state. The order of DIAG in it is decision D11 of the spec (log 20). -/
def Obligations.MachineInvIsKept : Prop :=
  (∀ s t : State, MachineInv s → step s = .next t → MachineInv t) ∧
  (∀ (m : HostMove) (s t : State), MachineInv s → hostMove m s = .next t → MachineInv t) ∧
  (∀ s : State, s.phase = .idle → s.ibuf.wf → MachineInv s) ∧
  (∀ s : State, Reachable s → MachineInv s)

/-- R190: a pass from any state that is not running, prepared by the host and stepped `floor(N/2)` times, ends in Done with the OUT
and DIAG of `disassemble`, and `disassemble` has the entries the rule writes. The order of DIAG, which R190 writes out, is decision
D11 of the spec (log 20), the admitted domain D7. -/
def Obligations.PassComputesDisassemble : Prop :=
  ∀ (bytes : List Byte) (mode : OffsetMode) (s : State), s.phase ≠ .running → LenAdmitted mode bytes.length →
    ∃ s0 t out, hostMoves (beginPass bytes mode) s = .next s0 ∧
      Host.Core.run Sys2Proof.core (bytes.length / 2) s0 = .next t ∧ t.phase = .done ∧
      t.result? = some (out, [.byteCount bytes.length] ++ (if bytes.length % 2 = 1 then [.malformedLength] else [])) ∧
      disassemble bytes mode = t.result? ∧ out.length = bytes.length / 2 ∧
      ∀ k b0 b1, bytes[2 * k]? = some b0 → bytes[2 * k + 1]? = some b1 →
        out[k]? = some ⟨offsetAt mode (2 * k), decode (BitVec.ofNat 16 (256 * b0.toNat + b1.toNat)),
          lineAt mode (2 * k) (text (decode (BitVec.ofNat 16 (256 * b0.toNat + b1.toNat))))⟩

/-- R195 (an inference of the spec): a pass takes exactly `floor(N/2)` steps, is Running before the last of them, and has no step after
it. The refusal of a further step is the model's form of 'no enabled step' (log 5). -/
def Obligations.PassTakesExactlyHalfTheBytes : Prop :=
  ∀ (bytes : List Byte) (mode : OffsetMode) (s s0 : State), hostMoves (beginPass bytes mode) s = .next s0 →
    (∀ k, k < bytes.length / 2 → ∃ t : State, Host.Core.run Sys2Proof.core k s0 = .next t ∧ t.phase = .running ∧ t.idx = 2 * k) ∧
    (∃ t : State, Host.Core.run Sys2Proof.core (bytes.length / 2) s0 = .next t ∧ t.phase = .done ∧
      t.idx = 2 * (bytes.length / 2)) ∧
    Host.Core.run Sys2Proof.core (bytes.length / 2 + 1) s0 = .refused .notRunning

/-- R196: the number of entries and of lines of a pass over `N` bytes is `floor(N/2)`, the warning is there exactly once for odd `N`;
and the two inputs without a word. -/
def Obligations.CountsOfAPass : Prop :=
  (∀ (bytes : List Byte) (mode : OffsetMode) (out : List OutEntry) (diag : List Diag),
    disassemble bytes mode = some (out, diag) →
      out.length = bytes.length / 2 ∧ (concatenated out).count '\n' = bytes.length / 2 ∧
      diag.count .malformedLength = bytes.length % 2) ∧
  (∀ mode, disassemble [] mode = some ([], [.byteCount 0])) ∧
  (∀ mode b, disassemble [b] mode = some ([], [.byteCount 1, .malformedLength])) ∧
  concatenated [] = []

/-- R199 (a) (an inference of the spec): in mode None the OUT of a concatenation of two even-length buffers is the concatenation. -/
def Obligations.OutOfAConcatenation : Prop :=
  ∀ a b : List Byte, a.length % 2 = 0 → b.length % 2 = 0 →
    ∃ oa ob, disassemble a .none = some (oa, [.byteCount a.length]) ∧ disassemble b .none = some (ob, [.byteCount b.length]) ∧
      disassemble (a ++ b) .none = some (oa ++ ob, [.byteCount (a.length + b.length)])

/-- R199 (b) (an inference of the spec): changing one byte of IBUF changes no record but that of its window. (It changes that one only
when the byte holds a bit DEC keeps, R96.) -/
def Obligations.OneByteReachesOneRecord : Prop :=
  ∀ (bytes : List Byte) (mode : OffsetMode) (j : Nat) (v : Byte) (out out' : List OutEntry) (diag diag' : List Diag),
    disassemble bytes mode = some (out, diag) → disassemble (bytes.set j v) mode = some (out', diag') →
    diag = diag' ∧ ∀ k, k ≠ j / 2 → out[k]? = out'[k]?

/-- R199 (c), R173: the records of a buffer are the same in every mode, and so are its lines once stripped of their prefixes. -/
def Obligations.RecordsAreTheSameInEveryMode : Prop :=
  ∀ (bytes : List Byte) (m m' : OffsetMode) (out out' : List OutEntry) (diag diag' : List Diag),
    disassemble bytes m = some (out, diag) → disassemble bytes m' = some (out', diag') →
    diag = diag' ∧ out.map (·.instr) = out'.map (·.instr) ∧
    out.map (fun e => stripPrefix e.line) = out'.map (fun e => stripPrefix e.line) ∧
    out.map (fun e => stripPrefix e.line) = out.map (fun e => text e.instr ++ ['\n'])

/-- R200: the same IBUF, LEN and MODE give the same pass, whatever earlier passes left, and a pass does not touch them. -/
def Obligations.PassIsRestartable : Prop :=
  (∀ s s' : State, s.phase ≠ .running → s'.phase ≠ .running → s.ibuf = s'.ibuf → s.len = s'.len → s.mode = s'.mode →
    s.start = s'.start) ∧
  (∀ (bytes : List Byte) (mode : OffsetMode) (s s' : State), s.phase ≠ .running → s'.phase ≠ .running →
    hostMoves (beginPass bytes mode) s = hostMoves (beginPass bytes mode) s') ∧
  (∀ (k : Nat) (s t : State), Host.Core.run Sys2Proof.core k s = .next t →
    t.ibuf = s.ibuf ∧ t.len = s.len ∧ t.mode = s.mode)

/-! ## REN -/

/-- R166: `hexU(v, w)` has only upper-case hex digits, denotes `v`, and is padded to at least `w` characters and never shortened.
Upper case everywhere is decision D6 of the spec. -/
def Obligations.HexNumerals : Prop :=
  (∀ v w : Nat, (∀ c ∈ hexU v w, c ∈ "0123456789ABCDEF".toList) ∧ numeralValue (hexU v w) = v ∧
    (hexU v w).length = max w (Nat.log 16 v + 1)) ∧
  hexU 0x0F 2 = "0F".toList ∧ hexU 0xABC 3 = "ABC".toList ∧ hexU 0 3 = "000".toList ∧ hexU 0x100 2 = "100".toList ∧
  hexU 0x1000 3 = "1000".toList

/-- R166: in a text every numeral has exactly its width, because the value fits. -/
def Obligations.OperandNumeralsHaveTheirWidth : Prop :=
  (∀ x : Nibble, (hexU x.toNat 1).length = 1) ∧ (∀ kk : Byte, (hexU kk.toNat 2).length = 2) ∧
  (∀ nnn : Addr, (hexU nnn.toNat 3).length = 3) ∧ (∀ w : Word, (hexU w.toNat 4).length = 4)

/-- R167: the sixteen register spellings. -/
def Obligations.RegisterSpellings : Prop :=
  (List.range 16).map (fun x => (Operand.reg (BitVec.ofNat 4 x)).spell) =
    ["V0", "V1", "V2", "V3", "V4", "V5", "V6", "V7", "V8", "V9", "VA", "VB", "VC", "VD", "VE", "VF"].map String.toList

/-- R169: the three prefixes with the rule's examples; the two remaining combinations have none. -/
def Obligations.PrefixTable : Prop :=
  (∀ o, linePrefix .none o = some []) ∧
  (∀ o, linePrefix .byteOffset (some o) = some ("0x".toList ++ hexU o 2 ++ ['\t'])) ∧
  (∀ o, linePrefix .addressOffset (some o) = some ("0x".toList ++ hexU o 3 ++ ['\t'])) ∧
  linePrefix .byteOffset none = none ∧ linePrefix .addressOffset none = none ∧
  linePrefix .byteOffset (some 0) = some ['0', 'x', '0', '0', '\t'] ∧
  linePrefix .byteOffset (some 0xFE) = some ['0', 'x', 'F', 'E', '\t'] ∧
  linePrefix .byteOffset (some 0x100) = some ['0', 'x', '1', '0', '0', '\t'] ∧
  linePrefix .addressOffset (some 0x200) = some ['0', 'x', '2', '0', '0', '\t'] ∧
  linePrefix .addressOffset (some 0x1000) = some ['0', 'x', '1', '0', '0', '0', '\t']

/-- R170, R165: a line is prefix, text, one line feed; it holds no other line feed, and a tab exactly when it has a prefix, then one,
at the prefix's end. -/
def Obligations.LineTermination : Prop :=
  ∀ (i : Instr) (off : Option Nat) (mode : OffsetMode) (line : Text), render i off mode = some line →
    ∃ p, linePrefix mode off = some p ∧ line = p ++ text i ++ ['\n'] ∧
      line.count '\n' = 1 ∧ line.getLast? = some '\n' ∧ line.count '\r' = 0 ∧
      line.count '\t' = (if mode = .none then 0 else 1) ∧ (mode ≠ .none → p.getLast? = some '\t') ∧
      (mode = .none → p = [])

/-- R171 (an inference of the spec): the characters of all lines are exactly the 49 of the rule. -/
def Obligations.AlphabetOfLines : Prop :=
  alphabet.length = 49 ∧ alphabet.Nodup ∧
  (∀ (w : Word) (mode : OffsetMode) (idx : Nat) (line : Text), render (decode w) (offset mode idx) mode = some line →
    ∀ c ∈ line, c ∈ alphabet) ∧
  ∀ c ∈ alphabet, ∃ (w : Word) (mode : OffsetMode) (line : Text),
    render (decode w) (offset mode 0) mode = some line ∧ c ∈ line

/-- R172 (an inference of the spec): the lengths of texts, prefixes and lines, and that the bounds are met. -/
def Obligations.LengthsOfLines : Prop :=
  (∀ w : Word, 4 ≤ (text (decode w)).length ∧ (text (decode w)).length ≤ 21 ∧
    ((decode w).tag ≠ 35 → (text (decode w)).length ≤ 15) ∧
    ((decode w).tag = 35 → (text (decode w)).length = 21)) ∧
  (text .cls).length = 4 ∧ (text .ret).length = 4 ∧ (∀ x y n, (text (.drw x y n)).length = 15) ∧
  (∀ o p, o ≤ 0xFFFE → linePrefix .byteOffset (some o) = some p → 5 ≤ p.length ∧ p.length ≤ 7) ∧
  (∀ o p, 0x200 ≤ o → o ≤ 0xFFFE → linePrefix .addressOffset (some o) = some p → 6 ≤ p.length ∧ p.length ≤ 7) ∧
  (∀ (w : Word) (mode : OffsetMode) (idx : Nat) (line : Text), (∀ o, offset mode idx = some o → o ≤ 0xFFFE) →
    render (decode w) (offset mode idx) mode = some line → 5 ≤ line.length ∧ line.length ≤ 29)

/-- R173: the text depends on neither mode nor offset: stripping its prefix leaves the text and the line feed, in every mode. -/
def Obligations.TextIgnoresModeAndOffset : Prop :=
  (∀ i : Instr, '\t' ∉ text i) ∧
  (∀ (i : Instr) (off : Option Nat) (mode : OffsetMode) (line : Text), render i off mode = some line →
    stripPrefix line = text i ++ ['\n']) ∧
  ∀ (i : Instr) (off : Option Nat), render i off .none = some (text i ++ ['\n'])

/-- R174 (an inference of the spec): two different records never give the same text. -/
def Obligations.TextIsInjective : Prop := ∀ i j : Instr, text i = text j → i = j

/-- R71: the table of R168 and the grammar of R71 spell every record alike. -/
def Obligations.GrammarSpellsTheTable : Prop := ∀ i : Instr, text i = grammarText i
end

