-- ==== Sys2Proof/Laws/Decode.lean ====
section
/-! SUPPORT. How FX reads a word written as its fields, in the three shapes of 30_encoding.md R61, and that every word is
written so. -/

namespace Sys2Proof.Laws

/-! ### Slices of an append -/

theorem slice_high {v k : Nat} (a : BitVec v) (b : BitVec k) : (a ++ b).extractLsb' k v = a := by
  ext i hi; simp [BitVec.getLsbD_append, hi]

theorem slice_low {v k : Nat} (a : BitVec v) (b : BitVec k) : (a ++ b).extractLsb' 0 k = b := by
  ext i hi; simp [BitVec.getLsbD_append, hi]

theorem slice_in_high {v k : Nat} (a : BitVec v) (b : BitVec k) (s l : Nat) :
    (a ++ b).extractLsb' (k + s) l = a.extractLsb' s l := by
  ext i hi; simp [BitVec.getLsbD_append, Nat.add_assoc]

variable (a x y n : Nibble) (kk : Byte) (nnn : Addr)

@[simp] theorem op_nnn : (fields (a ++ nnn)).op = a := slice_high a nnn
@[simp] theorem nnn_nnn : (fields (a ++ nnn)).nnn = nnn := slice_low a nnn
@[simp] theorem op_xkk : (fields (a ++ x ++ kk)).op = a := (slice_in_high (a ++ x) kk 4 4).trans (slice_high a x)
@[simp] theorem x_xkk : (fields (a ++ x ++ kk)).x = x := (slice_in_high (a ++ x) kk 0 4).trans (slice_low a x)
@[simp] theorem kk_xkk : (fields (a ++ x ++ kk)).kk = kk := slice_low (a ++ x) kk
@[simp] theorem op_xyn : (fields (a ++ x ++ y ++ n)).op = a :=
  (slice_in_high (a ++ x ++ y) n 8 4).trans ((slice_in_high (a ++ x) y 4 4).trans (slice_high a x))
@[simp] theorem x_xyn : (fields (a ++ x ++ y ++ n)).x = x :=
  (slice_in_high (a ++ x ++ y) n 4 4).trans ((slice_in_high (a ++ x) y 0 4).trans (slice_low a x))
@[simp] theorem y_xyn : (fields (a ++ x ++ y ++ n)).y = y :=
  (slice_in_high (a ++ x ++ y) n 0 4).trans (slice_low (a ++ x) y)
@[simp] theorem n_xyn : (fields (a ++ x ++ y ++ n)).n = n := slice_low (a ++ x ++ y) n

/-- A vector is its high part and its low part. -/
theorem append_slices {k l : Nat} (w : BitVec (l + k)) : w = w.extractLsb' k l ++ w.extractLsb' 0 k := by
  ext i hi
  rw [BitVec.getElem_append]
  split
  · simp [BitVec.getLsbD_eq_getElem hi]
  · simp [show k + (i - k) = i by omega, BitVec.getLsbD_eq_getElem hi]

/-- Every word is its primary nibble and its twelve low bits. -/
theorem word_eq_op_nnn (w : Word) : w = (fields w).op ++ (fields w).nnn := append_slices (l := 4) (k := 12) w

theorem slice_of_slice (w : Word) (s l k : Nat) (h : s + l ≤ k) :
    (w.extractLsb' 0 k).extractLsb' s l = w.extractLsb' s l := by
  ext i hi; simp; omega

/-- `nnn` is `x` and `kk`. -/
theorem nnn_eq_x_kk (w : Word) : (fields w).nnn = (fields w).x ++ (fields w).kk := by
  have h := append_slices (l := 4) (k := 8) (fields w).nnn
  rw [show (fields w).nnn = w.extractLsb' 0 12 from rfl, slice_of_slice w 8 4 12 (by decide),
    slice_of_slice w 0 8 12 (by decide)] at h
  exact h

/-- `kk` is `y` and `n`. -/
theorem kk_eq_y_n (w : Word) : (fields w).kk = (fields w).y ++ (fields w).n := by
  have h := append_slices (l := 4) (k := 4) (fields w).kk
  rw [show (fields w).kk = w.extractLsb' 0 8 from rfl, slice_of_slice w 4 4 8 (by decide),
    slice_of_slice w 0 4 8 (by decide)] at h
  exact h

theorem append_assoc_toNat {i j k : Nat} (a : BitVec i) (b : BitVec j) (c : BitVec k) :
    (a ++ (b ++ c)).toNat = (a ++ b ++ c).toNat := by
  rw [BitVec.append_assoc]; simp

theorem append_x_kk : a ++ (x ++ kk) = (a ++ x ++ kk : Word) := BitVec.eq_of_toNat_eq (append_assoc_toNat a x kk)

theorem append_y_n : a ++ x ++ (y ++ n) = (a ++ x ++ y ++ n : Word) :=
  BitVec.eq_of_toNat_eq (append_assoc_toNat (a ++ x) y n)

/-- Every word is its primary nibble, `x` and `kk`. -/
theorem word_eq_op_x_kk (w : Word) : w = (fields w).op ++ (fields w).x ++ (fields w).kk :=
  calc w = (fields w).op ++ (fields w).nnn := word_eq_op_nnn w
    _ = (fields w).op ++ ((fields w).x ++ (fields w).kk) := congrArg _ (nnn_eq_x_kk w)
    _ = (fields w).op ++ (fields w).x ++ (fields w).kk := append_x_kk _ _ _

/-- Every word is its four nibbles. -/
theorem word_eq_op_x_y_n (w : Word) : w = (fields w).op ++ (fields w).x ++ (fields w).y ++ (fields w).n :=
  calc w = (fields w).op ++ (fields w).x ++ (fields w).kk := word_eq_op_x_kk w
    _ = (fields w).op ++ (fields w).x ++ ((fields w).y ++ (fields w).n) := congrArg _ (kk_eq_y_n w)
    _ = (fields w).op ++ (fields w).x ++ (fields w).y ++ (fields w).n := append_y_n _ _ _ _

/-- A word is laid out high byte first and read back so (20_memory.md R42). -/
theorem wordOf_bytes (w : Word) : wordOf (highByte w) (lowByte w) = w := by
  simp only [wordOf, highByte, lowByte]
  ext i hi
  by_cases h : i < 8
  · simp [h, BitVec.getLsbD_eq_getElem hi]
  · simp [h, show 8 + (i - 8) = i by omega, BitVec.getLsbD_eq_getElem hi]; omega

end Sys2Proof.Laws
end

