-- ==== Sys2Proof/Laws/State.lean ====
section
/-! SUPPORT. One lemma per field per update of State, and the values of the two parameters. -/

namespace Sys2Proof

@[simp] theorem Config.offsetStep_eq : Config.offsetStep = 2 := rfl
@[simp] theorem Config.offsetLimit_eq : Config.offsetLimit = 65536 := rfl

namespace Machine

variable (s : State) (e : OutEntry) (w : Word)

@[simp] theorem append_out : (s.append e).out = s.out ++ [e] := rfl
@[simp] theorem append_phase : (s.append e).phase = s.phase := rfl
@[simp] theorem append_idx : (s.append e).idx = s.idx := rfl
@[simp] theorem append_diag : (s.append e).diag = s.diag := rfl
@[simp] theorem append_mode : (s.append e).mode = s.mode := rfl
@[simp] theorem append_len : (s.append e).len = s.len := rfl
@[simp] theorem append_ibuf : (s.append e).ibuf = s.ibuf := rfl

@[simp] theorem advance_idx : s.advance.idx = s.idx + 2 := rfl
@[simp] theorem advance_phase : s.advance.phase = if s.idx + 2 = evenLen s.len then .done else .running := rfl
@[simp] theorem advance_out : s.advance.out = s.out := rfl
@[simp] theorem advance_diag : s.advance.diag = s.diag := rfl
@[simp] theorem advance_mode : s.advance.mode = s.mode := rfl
@[simp] theorem advance_len : s.advance.len = s.len := rfl
@[simp] theorem advance_ibuf : s.advance.ibuf = s.ibuf := rfl

@[simp] theorem started_idx : s.started.idx = 0 := rfl
@[simp] theorem started_out : s.started.out = [] := rfl
@[simp] theorem started_diag : s.started.diag = startDiag s.len := rfl
@[simp] theorem started_phase : s.started.phase = if s.len / 2 = 0 then .done else .running := rfl
@[simp] theorem started_mode : s.started.mode = s.mode := rfl
@[simp] theorem started_len : s.started.len = s.len := rfl
@[simp] theorem started_ibuf : s.started.ibuf = s.ibuf := rfl

@[simp] theorem withWindow_phase : (s.withWindow w).phase = .running := rfl
@[simp] theorem withWindow_idx : (s.withWindow w).idx = s.idx := rfl
@[simp] theorem withWindow_out : (s.withWindow w).out = s.out := rfl
@[simp] theorem withWindow_mode : (s.withWindow w).mode = s.mode := rfl
@[simp] theorem withWindow_len : (s.withWindow w).len = max s.len (s.idx + 2) := rfl
@[simp] theorem withWindow_diag : (s.withWindow w).diag = startDiag (max s.len (s.idx + 2)) := rfl
@[simp] theorem withWindow_ibuf :
    (s.withWindow w).ibuf = (s.ibuf.write s.idx (highByte w)).write (s.idx + 1) (lowByte w) := rfl

end Machine

end Sys2Proof
end

