-- ==== Sys2Proof/Laws/Memory.lean ====
section
/-! SUPPORT. IBUF as a memory: read after write, the canonical form, and all that a MemRead and a fetch can answer. -/

namespace Sys2Proof.Machine

@[simp] theorem Memory.read_nil (a : Nat) : Memory.read [] a = none := rfl

theorem Memory.read_cons (k : Nat) (v : Byte) (m : Memory) (a : Nat) :
    Memory.read ((k, v) :: m) a = if k = a then some v else m.read a := rfl

/-- A write is read back. -/
@[simp] theorem Memory.read_write_self (m : Memory) (a : Nat) (b : Byte) : (m.write a b).read a = some b := by
  induction m with
  | nil => simp [Memory.write, Memory.read_cons]
  | cons p m ih =>
    obtain ⟨k, v⟩ := p
    simp only [Memory.write]
    split
    · simp [Memory.read_cons]
    · split
      · simp [Memory.read_cons]
      · simp [Memory.read_cons, ih]; omega

/-- A write leaves every other index alone. -/
theorem Memory.read_write_of_ne (m : Memory) {a c : Nat} (b : Byte) (h : c ≠ a) : (m.write a b).read c = m.read c := by
  induction m with
  | nil => simp [Memory.write, Memory.read_cons, h.symm]
  | cons p m ih =>
    obtain ⟨k, v⟩ := p
    simp only [Memory.write]
    split
    · simp [Memory.read_cons, h.symm]
    · split
      · subst_vars; simp [Memory.read_cons, h.symm]
      · simp [Memory.read_cons, ih]

/-- The indices after a write are those before it and the one written. -/
theorem Memory.mem_write {m : Memory} {a : Nat} {b : Byte} {p : Nat × Byte} (h : p ∈ m.write a b) :
    p.1 = a ∨ p ∈ m := by
  induction m with
  | nil => simp_all [Memory.write]
  | cons q m ih =>
    obtain ⟨k, v⟩ := q
    simp only [Memory.write] at h
    split at h
    · simp only [List.mem_cons] at h ⊢; rcases h with rfl | h <;> simp_all
    · split at h
      · simp only [List.mem_cons] at h ⊢; rcases h with rfl | h <;> simp_all
      · simp only [List.mem_cons] at h ⊢
        rcases h with rfl | h
        · simp
        · rcases ih h with h | h <;> simp [h]

/-- A write keeps the canonical form. -/
theorem Memory.write_wf {m : Memory} (a : Nat) (b : Byte) (h : m.wf) : (m.write a b).wf := by
  induction m with
  | nil => simp [Memory.write]
  | cons q m ih =>
    obtain ⟨k, v⟩ := q
    rw [Memory.wf, List.pairwise_cons] at h
    simp only [Memory.write]
    split
    · rename_i hlt
      rw [Memory.wf, List.pairwise_cons, List.pairwise_cons]
      refine ⟨fun p hp => ?_, h⟩
      rcases List.mem_cons.1 hp with rfl | hp
      · exact hlt
      · exact Nat.lt_trans hlt (h.1 p hp)
    · split
      · subst_vars; rw [Memory.wf, List.pairwise_cons]; exact h
      · rw [Memory.wf, List.pairwise_cons]
        refine ⟨fun p hp => ?_, ih h.2⟩
        rcases Memory.mem_write hp with hp | hp
        · simp only; omega
        · exact h.1 p hp

/-- The indices of a placed input are at least the first. -/
theorem Memory.start_le_of_mem_ofBytesFrom {bs : List Byte} {start : Nat} {p : Nat × Byte}
    (h : p ∈ Memory.ofBytesFrom start bs) : start ≤ p.1 := by
  induction bs generalizing start with
  | nil => simp [Memory.ofBytesFrom] at h
  | cons b bs ih =>
    rcases List.mem_cons.1 h with rfl | h
    · exact Nat.le_refl _
    · exact Nat.le_of_succ_le (ih h)

/-- Placing an input gives the canonical form. -/
theorem Memory.ofBytesFrom_wf (start : Nat) (bs : List Byte) : (Memory.ofBytesFrom start bs).wf := by
  induction bs generalizing start with
  | nil => simp [Memory.ofBytesFrom]
  | cons b bs ih =>
    rw [Memory.ofBytesFrom, Memory.wf, List.pairwise_cons]
    exact ⟨fun p hp => Memory.start_le_of_mem_ofBytesFrom hp, ih _⟩

theorem Memory.ofBytes_wf (bs : List Byte) : (Memory.ofBytes bs).wf := Memory.ofBytesFrom_wf 0 bs

/-- The state after reset has a canonical IBUF. -/
theorem reset_memory_wf : State.reset.ibuf.wf := List.Pairwise.nil

theorem Memory.readMany_succ {m : Memory} {a n : Nat} {bs : List Byte} :
    m.readMany a (n + 1) = some bs ↔ ∃ b bs', bs = b :: bs' ∧ m.read a = some b ∧ m.readMany (a + 1) n = some bs' := by
  rw [Memory.readMany]
  cases m.read a <;> cases m.readMany (a + 1) n <;> simp [eq_comm]

/-- `readMany` answers exactly the bytes that are there, in order. -/
theorem Memory.readMany_eq_some {m : Memory} {a n : Nat} {bs : List Byte} :
    m.readMany a n = some bs ↔ bs.length = n ∧ ∀ j, j < n → m.read (a + j) = bs[j]? := by
  induction n generalizing a bs with
  | zero => cases bs <;> simp [Memory.readMany]
  | succ n ih =>
    rw [Memory.readMany_succ]
    constructor
    · rintro ⟨b, bs', rfl, h0, h⟩
      obtain ⟨hl, h⟩ := ih.1 h
      refine ⟨by simp [hl], fun j hj => ?_⟩
      cases j with
      | zero => simpa using h0
      | succ j => simpa [Nat.add_assoc, Nat.add_comm 1] using h j (by omega)
    · rintro ⟨hl, h⟩
      cases bs with
      | nil => simp at hl
      | cons b bs' =>
        refine ⟨b, bs', rfl, by simpa using h 0 (by omega), ih.2 ⟨by simpa using hl, fun j hj => ?_⟩⟩
        simpa [Nat.add_assoc, Nat.add_comm 1] using h (j + 1) (by omega)

theorem Memory.holds_iff {m : Memory} {n : Nat} : m.holds n = true ↔ ∀ a, a < n → m.read a ≠ none := by
  simp [Memory.holds, Option.ne_none_iff_isSome]

/-- All a MemRead can answer: the bytes, in order, inside `0 .. LEN-1`. -/
theorem memRead_eq_ok {s : State} {a n : Nat} {bs : List Byte} :
    s.memRead a n = .ok bs ↔ a + n ≤ s.len ∧ s.ibuf.readMany a n = some bs := by
  unfold State.memRead
  split
  · split <;> simp_all
  · simp_all

/-- All a fetch can answer: the big-endian word of the two bytes at `idx`. -/
theorem fetch_eq_ok {s : State} {w : Word} :
    s.fetch = .ok w ↔ s.idx + 2 ≤ s.len ∧
      ∃ b0 b1, s.ibuf.read s.idx = some b0 ∧ s.ibuf.read (s.idx + 1) = some b1 ∧ w = wordOf b0 b1 := by
  have two : ∀ {bs : List Byte}, s.ibuf.readMany s.idx 2 = some bs ↔
      ∃ b0 b1, bs = [b0, b1] ∧ s.ibuf.read s.idx = some b0 ∧ s.ibuf.read (s.idx + 1) = some b1 := by
    intro bs
    simp only [Memory.readMany]
    cases s.ibuf.read s.idx <;> cases s.ibuf.read (s.idx + 1) <;> simp [eq_comm]
  unfold State.fetch
  constructor
  · intro h
    split at h
    · rename_i b0 b1 hm
      obtain ⟨hl, hr⟩ := memRead_eq_ok.1 hm
      obtain ⟨c0, c1, hc, h0, h1⟩ := two.1 hr
      simp_all
    · simp at h
    · simp at h
  · rintro ⟨hl, b0, b1, h0, h1, rfl⟩
    rw [memRead_eq_ok.2 ⟨hl, two.2 ⟨b0, b1, rfl, h0, h1⟩⟩]

end Sys2Proof.Machine
end

