-- ==== Sys2Proof/Laws/PerInstr.lean ====
section
/-! SUPPORT. A property of every instruction as syntax: the word `encode` gives it lies in the family of its record
(30_encoding.md R64), one lemma per constructor. -/

namespace Sys2Proof

/-- The primary nibble of a record's words (30_encoding.md R64, R66). -/
def Instr.primary : Instr → Nibble
  | .cls | .ret | .sys _ => 0x0
  | .jp _ => 0x1
  | .call _ => 0x2
  | .seVxKk _ _ => 0x3
  | .sneVxKk _ _ => 0x4
  | .seVxVy _ _ => 0x5
  | .ldVxKk _ _ => 0x6
  | .addVxKk _ _ => 0x7
  | .ldVxVy _ _ | .orVxVy _ _ | .andVxVy _ _ | .xorVxVy _ _ | .addVxVy _ _ | .subVxVy _ _ | .shrVx _
  | .subnVxVy _ _ | .shlVx _ => 0x8
  | .sneVxVy _ _ => 0x9
  | .ldINnn _ => 0xA
  | .jpV0Nnn _ => 0xB
  | .rndVxKk _ _ => 0xC
  | .drw _ _ _ => 0xD
  | .skp _ | .sknp _ => 0xE
  | .ldVxDt _ | .ldVxK _ | .ldDtVx _ | .ldStVx _ | .addIVx _ | .ldFVx _ | .ldBVx _ | .ldMiVx _ | .ldVxMi _ => 0xF
  | .invalid w => w.extractLsb' 12 4

end Sys2Proof

namespace Sys2Proof.Laws

/-- The word of a record lies in the record's family. -/
def PrimaryNibble.Statement (i : Instr) : Prop := (fields (encode i)).op = i.primary

theorem PrimaryNibble.cls : PrimaryNibble.Statement .cls := rfl
theorem PrimaryNibble.ret : PrimaryNibble.Statement .ret := rfl
theorem PrimaryNibble.sys (nnn : Addr) : PrimaryNibble.Statement (.sys nnn) := op_nnn _ _
theorem PrimaryNibble.jp (nnn : Addr) : PrimaryNibble.Statement (.jp nnn) := op_nnn _ _
theorem PrimaryNibble.call (nnn : Addr) : PrimaryNibble.Statement (.call nnn) := op_nnn _ _
theorem PrimaryNibble.seVxKk (x : Nibble) (kk : Byte) : PrimaryNibble.Statement (.seVxKk x kk) := op_xkk _ _ _
theorem PrimaryNibble.sneVxKk (x : Nibble) (kk : Byte) : PrimaryNibble.Statement (.sneVxKk x kk) := op_xkk _ _ _
theorem PrimaryNibble.seVxVy (x : Nibble) (y : Nibble) : PrimaryNibble.Statement (.seVxVy x y) := op_xyn _ _ _ _
theorem PrimaryNibble.ldVxKk (x : Nibble) (kk : Byte) : PrimaryNibble.Statement (.ldVxKk x kk) := op_xkk _ _ _
theorem PrimaryNibble.addVxKk (x : Nibble) (kk : Byte) : PrimaryNibble.Statement (.addVxKk x kk) := op_xkk _ _ _
theorem PrimaryNibble.ldVxVy (x : Nibble) (y : Nibble) : PrimaryNibble.Statement (.ldVxVy x y) := op_xyn _ _ _ _
theorem PrimaryNibble.orVxVy (x : Nibble) (y : Nibble) : PrimaryNibble.Statement (.orVxVy x y) := op_xyn _ _ _ _
theorem PrimaryNibble.andVxVy (x : Nibble) (y : Nibble) : PrimaryNibble.Statement (.andVxVy x y) := op_xyn _ _ _ _
theorem PrimaryNibble.xorVxVy (x : Nibble) (y : Nibble) : PrimaryNibble.Statement (.xorVxVy x y) := op_xyn _ _ _ _
theorem PrimaryNibble.addVxVy (x : Nibble) (y : Nibble) : PrimaryNibble.Statement (.addVxVy x y) := op_xyn _ _ _ _
theorem PrimaryNibble.subVxVy (x : Nibble) (y : Nibble) : PrimaryNibble.Statement (.subVxVy x y) := op_xyn _ _ _ _
theorem PrimaryNibble.shrVx (x : Nibble) : PrimaryNibble.Statement (.shrVx x) := op_xyn _ _ _ _
theorem PrimaryNibble.subnVxVy (x : Nibble) (y : Nibble) : PrimaryNibble.Statement (.subnVxVy x y) := op_xyn _ _ _ _
theorem PrimaryNibble.shlVx (x : Nibble) : PrimaryNibble.Statement (.shlVx x) := op_xyn _ _ _ _
theorem PrimaryNibble.sneVxVy (x : Nibble) (y : Nibble) : PrimaryNibble.Statement (.sneVxVy x y) := op_xyn _ _ _ _
theorem PrimaryNibble.ldINnn (nnn : Addr) : PrimaryNibble.Statement (.ldINnn nnn) := op_nnn _ _
theorem PrimaryNibble.jpV0Nnn (nnn : Addr) : PrimaryNibble.Statement (.jpV0Nnn nnn) := op_nnn _ _
theorem PrimaryNibble.rndVxKk (x : Nibble) (kk : Byte) : PrimaryNibble.Statement (.rndVxKk x kk) := op_xkk _ _ _
theorem PrimaryNibble.drw (x : Nibble) (y : Nibble) (n : Nibble) : PrimaryNibble.Statement (.drw x y n) := op_xyn _ _ _ _
theorem PrimaryNibble.skp (x : Nibble) : PrimaryNibble.Statement (.skp x) := op_xkk _ _ _
theorem PrimaryNibble.sknp (x : Nibble) : PrimaryNibble.Statement (.sknp x) := op_xkk _ _ _
theorem PrimaryNibble.ldVxDt (x : Nibble) : PrimaryNibble.Statement (.ldVxDt x) := op_xkk _ _ _
theorem PrimaryNibble.ldVxK (x : Nibble) : PrimaryNibble.Statement (.ldVxK x) := op_xkk _ _ _
theorem PrimaryNibble.ldDtVx (x : Nibble) : PrimaryNibble.Statement (.ldDtVx x) := op_xkk _ _ _
theorem PrimaryNibble.ldStVx (x : Nibble) : PrimaryNibble.Statement (.ldStVx x) := op_xkk _ _ _
theorem PrimaryNibble.addIVx (x : Nibble) : PrimaryNibble.Statement (.addIVx x) := op_xkk _ _ _
theorem PrimaryNibble.ldFVx (x : Nibble) : PrimaryNibble.Statement (.ldFVx x) := op_xkk _ _ _
theorem PrimaryNibble.ldBVx (x : Nibble) : PrimaryNibble.Statement (.ldBVx x) := op_xkk _ _ _
theorem PrimaryNibble.ldMiVx (x : Nibble) : PrimaryNibble.Statement (.ldMiVx x) := op_xkk _ _ _
theorem PrimaryNibble.ldVxMi (x : Nibble) : PrimaryNibble.Statement (.ldVxMi x) := op_xkk _ _ _
theorem PrimaryNibble.invalid (opcode : Word) : PrimaryNibble.Statement (.invalid opcode) := rfl

end Sys2Proof.Laws
end

