-- ==== Sys2Proof/Laws/StreamDriver.lean ====
section
/-! SUPPORT. What the renderer answers SD, all that the shared operation `emit` and a host move can do, and the
inversion of a step: later proofs cite these and unfold nothing. -/

namespace Sys2Proof.Machine

theorem offset_eq_offsetAt (mode : OffsetMode) (idx : Nat) : offset mode idx = offsetAt mode idx := by
  cases mode <;> simp [offset, base, offsetAt]

/-- REN never meets an offset mode without an offset when SD calls it (93_implementation_defined.md U5). -/
theorem render_offset (i : Instr) (mode : OffsetMode) (idx : Nat) :
    render i (offset mode idx) mode = some (lineAt mode idx (text i)) := by
  cases mode <;> simp [render, offset, base, linePrefix, lineAt, prefixAt]

theorem admitted_iff (mode : OffsetMode) (n : Nat) : admitted mode n = true ↔ LenAdmitted mode n := by
  cases mode with
  | none => simp [admitted, base, LenAdmitted]
  | byteOffset =>
    refine Iff.trans (b := 0 + 2 * (n / 2) ≤ 65536) decide_eq_true_iff ?_
    rw [LenAdmitted]; omega
  | addressOffset =>
    refine Iff.trans (b := 0x200 + 2 * (n / 2) ≤ 65536) decide_eq_true_iff ?_
    rw [LenAdmitted]; omega

/-- All that `emit` can do: it refuses exactly outside the admitted domain, and else appends the entry and advances. -/
theorem emit_eq (i : Instr) (s : State) :
    emit i s = if admitted s.mode s.len then .next (afterWord s i (text i)) else .refused .lenNotAdmitted := by
  unfold emit
  rw [render_offset]
  split
  · simp [afterWord, State.append, State.advance, offset_eq_offsetAt, evenLen]
  · rfl

theorem emit_eq_next {i : Instr} {s t : State} :
    emit i s = .next t ↔ LenAdmitted s.mode s.len ∧ t = afterWord s i (text i) := by
  rw [emit_eq, ← admitted_iff, eq_comm (a := t)]
  split <;> simp_all

/-- Every meaning is the shared operation on its own record. -/
theorem exec_eq_emit (i : Instr) (s : State) : exec i s = emit i s := by
  cases i <;> rfl

theorem startDiag_eq (n : Nat) :
    startDiag n = .byteCount n :: (if n % 2 = 1 then [.malformedLength] else []) := by
  simp [startDiag, oddLength]

/-- All that START can do (49_stream_driver.md R191). -/
theorem start_eq_next {s t : State} :
    s.start = .next t ↔ s.phase ≠ .running ∧ LenAdmitted s.mode s.len ∧ (∀ a, a < s.len → s.ibuf.read a ≠ none) ∧
      t = s.started := by
  unfold State.start
  rw [← admitted_iff, ← Memory.holds_iff, eq_comm (a := t)]
  split
  · simp_all
  · split
    · split <;> simp_all
    · simp_all

/-- All that a host move can do: outside `Running`, replace one parameter, or START. -/
theorem hostMove_eq_next {m : HostMove} {s t : State} (h : hostMove m s = .next t) :
    s.phase ≠ .running ∧
      ((∃ bytes, m = .place bytes ∧ t = { s with ibuf := Memory.ofBytes bytes }) ∨
       (∃ n, m = .setLen n ∧ t = { s with len := n }) ∨
       (∃ bits mode, m = .setMode bits ∧ modeOfBits bits = some mode ∧ t = { s with mode := mode }) ∨
       (m = .start ∧ LenAdmitted s.mode s.len ∧ (∀ a, a < s.len → s.ibuf.read a ≠ none) ∧ t = s.started)) := by
  cases m with
  | place bytes =>
    simp only [hostMove, State.setUp] at h
    split at h <;> simp_all [eq_comm]
  | setLen n =>
    simp only [hostMove, State.setUp] at h
    split at h <;> simp_all [eq_comm]
  | setMode bits =>
    simp only [hostMove, State.setUp] at h
    split at h
    · split at h <;> simp_all [eq_comm]
    · simp at h
  | start =>
    obtain ⟨hp, ha, hb, ht⟩ := start_eq_next.1 h
    exact ⟨hp, .inr (.inr (.inr ⟨rfl, ha, hb, ht⟩))⟩

/-- All that a step can do (49_stream_driver.md R193): it needs a running pass, two bytes at `idx` inside LEN and an
admitted LEN, and then emits the record of the word they make. -/
theorem step_eq_next {s t : State} :
    step s = .next t ↔ s.phase = .running ∧ s.idx + 2 ≤ s.len ∧ LenAdmitted s.mode s.len ∧
      ∃ b0 b1, s.ibuf.read s.idx = some b0 ∧ s.ibuf.read (s.idx + 1) = some b1 ∧
        t = afterWord s (decode (wordOf b0 b1)) (text (decode (wordOf b0 b1))) := by
  unfold step
  split
  · rename_i hp
    cases hf : s.fetch with
    | error r =>
      simp only [reduceCtorEq, false_iff]
      rintro ⟨-, hl, -, b0, b1, h0, h1, -⟩
      rw [fetch_eq_ok.2 ⟨hl, b0, b1, h0, h1, rfl⟩] at hf
      cases hf
    | ok w =>
      obtain ⟨hl, b0, b1, h0, h1, rfl⟩ := fetch_eq_ok.1 hf
      simp only [exec_eq_emit, emit_eq_next]
      constructor
      · rintro ⟨ha, rfl⟩
        exact ⟨hp, hl, ha, b0, b1, h0, h1, rfl⟩
      · rintro ⟨-, -, ha, c0, c1, k0, k1, rfl⟩
        rw [h0] at k0
        rw [h1] at k1
        cases k0
        cases k1
        exact ⟨ha, rfl⟩
  · simp_all

end Sys2Proof.Machine
end

