-- ==== Sys2Proof/Tests/Slice0.lean ====
section
/-! SUPPORT. The model's own tests: the smoke test of `wellFormed`; decoding, spelling and one step on words and buffers whose expected results
stand in 95_test_vectors.md or in the instruction rules; and, for every statement with hypotheses, a witness that meets them. -/

namespace Sys2Proof.Tests

open Sys2Proof Sys2Proof.Machine

/-! ## Helpers -/

/-- The state right after START on a buffer. -/
def running (bytes : List Byte) (mode : OffsetMode) : State :=
  State.started ⟨.idle, 7, [], [], mode, bytes.length, Memory.ofBytes bytes⟩

/-- The next state, if there is one. -/
def next? : Host.Outcome State Fault Refusal → Option State
  | .next s => some s
  | .fault _ => none
  | .refused _ => none

/-- The refusal, if there is one. -/
def refusal? : Host.Outcome State Fault Refusal → Option Refusal
  | .next _ => none
  | .fault _ => none
  | .refused r => some r

/-- The line one step adds on a buffer of one word. -/
def lineOf (b0 b1 : Byte) (mode : OffsetMode) : Option Text :=
  (next? (step (running [b0, b1] mode))).bind fun t => t.out.getLast?.map (·.line)

/-- A word decodes to a record and the record has a text. -/
def gives (w : Word) (i : Instr) (txt : String) : Bool := decode w == i && text i == txt.toList

/-! ## `wellFormed` refuses the ill-formed records -/

theorem test_wellFormed_refuses_sys_of_cls : (Instr.sys 0x0E0).wellFormed = false := by decide
theorem test_wellFormed_refuses_sys_of_ret : (Instr.sys 0x0EE).wellFormed = false := by decide
theorem test_wellFormed_refuses_invalid_other_family : (Instr.invalid 0x1234).wellFormed = false := by decide
theorem test_wellFormed_refuses_invalid_matched_n : (Instr.invalid 0x8120).wellFormed = false := by decide
theorem test_wellFormed_refuses_invalid_matched_kk : (Instr.invalid 0xF107).wellFormed = false := by decide
theorem test_wellFormed_accepts :
    (Instr.sys 0x0E1).wellFormed && (Instr.invalid 0x8128).wellFormed && (Instr.invalid 0xF106).wellFormed = true := by decide

/-! ## Decoding and spelling, every constructor (table V-DEC) -/

theorem test_decode_family0 :
    gives 0x00E0 .cls "CLS " && gives 0x00EE .ret "RET " && gives 0x00E1 (.sys 0x0E1) "SYS 0x0E1" &&
      gives 0x0000 (.sys 0x000) "SYS 0x000" && gives 0x01E0 (.sys 0x1E0) "SYS 0x1E0" = true := by decide
theorem test_decode_families1_to_4 :
    gives 0x10E0 (.jp 0x0E0) "JP 0x0E0" && gives 0x1ABC (.jp 0xABC) "JP 0xABC" && gives 0x2ABC (.call 0xABC) "CALL 0xABC" &&
      gives 0x3A0F (.seVxKk 0xA 0x0F) "SE VA, 0x0F" && gives 0x4B7F (.sneVxKk 0xB 0x7F) "SNE VB, 0x7F" = true := by decide
theorem test_decode_families5_to_7 :
    gives 0x5AB7 (.seVxVy 0xA 0xB) "SE VA, VB" && gives 0x6A12 (.ldVxKk 0xA 0x12) "LD VA, 0x12" &&
      gives 0x7C01 (.addVxKk 0xC 0x01) "ADD VC, 0x01" = true := by decide
theorem test_decode_family8_low :
    gives 0x8120 (.ldVxVy 1 2) "LD V1, V2" && gives 0x8AB1 (.orVxVy 0xA 0xB) "OR VA, VB" &&
      gives 0x8CD2 (.andVxVy 0xC 0xD) "AND VC, VD" && gives 0x8EF3 (.xorVxVy 0xE 0xF) "XOR VE, VF" &&
      gives 0x8014 (.addVxVy 0 1) "ADD V0, V1" = true := by decide
theorem test_decode_family8_high :
    gives 0x89A5 (.subVxVy 9 0xA) "SUB V9, VA" && gives 0x81F6 (.shrVx 1) "SHR V1" &&
      gives 0x8BC7 (.subnVxVy 0xB 0xC) "SUBN VB, VC" && gives 0x8FFE (.shlVx 0xF) "SHL VF" = true := by decide
theorem test_decode_families9_to_D :
    gives 0x912F (.sneVxVy 1 2) "SNE V1, V2" && gives 0xA234 (.ldINnn 0x234) "LD I, 0x234" &&
      gives 0xB234 (.jpV0Nnn 0x234) "JP V0, 0x234" && gives 0xC3FF (.rndVxKk 3 0xFF) "RND V3, 0xFF" &&
      gives 0xD125 (.drw 1 2 5) "DRW V1, V2, 0x5" = true := by decide
theorem test_decode_familyE :
    gives 0xE19E (.skp 1) "SKP V1" && gives 0xE1A1 (.sknp 1) "SKNP V1" && gives 0xE18E (.sknp 1) "SKNP V1" = true := by decide
theorem test_decode_familyF_low :
    gives 0xF107 (.ldVxDt 1) "LD V1, DT" && gives 0xF20A (.ldVxK 2) "LD V2, K" && gives 0xF315 (.ldDtVx 3) "LD DT, V3" &&
      gives 0xF418 (.ldStVx 4) "LD ST, V4" && gives 0xF51E (.addIVx 5) "ADD I, V5" = true := by decide
theorem test_decode_familyF_high :
    gives 0xF629 (.ldFVx 6) "LD F, V6" && gives 0xF733 (.ldBVx 7) "LD B, V7" && gives 0xF855 (.ldMiVx 8) "LD [I], V8" &&
      gives 0xF965 (.ldVxMi 9) "LD V9, [I]" = true := by decide
theorem test_decode_invalid_family8 :
    gives 0x8128 (.invalid 0x8128) "Invalid Opcode 0x8128" && gives 0x8FFF (.invalid 0x8FFF) "Invalid Opcode 0x8FFF" = true := by
  decide
theorem test_decode_invalid_familyF :
    gives 0xF106 (.invalid 0xF106) "Invalid Opcode 0xF106" && gives 0xF175 (.invalid 0xF175) "Invalid Opcode 0xF175" = true := by
  decide

/-- A single byte is no instruction (20_memory.md R44), and the bytes after a word are left (S9). -/
theorem test_decodeBytes_halfWord : decodeBytes [0xFF] = .error .halfWord := by decide
theorem test_decodeBytes_noByte : decodeBytes [] = .error .noByte := by decide
theorem test_decodeBytes_rest : decodeBytes [0x12, 0x34, 0xFF] = .ok (.jp 0x234, [0xFF]) := by decide

/-! ## One step on a buffer of one word (S7 to S9 and the texts of table V-DEC) -/

theorem test_step_cls : lineOf 0x00 0xE0 .none = some "CLS \n".toList := by decide
theorem test_step_ret_address : lineOf 0x00 0xEE .addressOffset = some "0x200\tRET \n".toList := by decide
theorem test_step_jp : lineOf 0x12 0x34 .none = some "JP 0x234\n".toList := by decide
theorem test_step_ldINnn : lineOf 0xA2 0x34 .none = some "LD I, 0x234\n".toList := by decide
theorem test_step_shr_byte : lineOf 0x81 0xF6 .byteOffset = some "0x00\tSHR V1\n".toList := by decide
theorem test_step_sknp : lineOf 0xE1 0x00 .none = some "SKNP V1\n".toList := by decide
theorem test_step_ldVxMi : lineOf 0xF9 0x65 .none = some "LD V9, [I]\n".toList := by decide
theorem test_step_invalid : lineOf 0x81 0x28 .none = some "Invalid Opcode 0x8128\n".toList := by decide

/-- A jump moves `idx` by 2 and by nothing else (49_stream_driver.md R194), and a last word ends the pass. -/
theorem test_step_jp_not_followed :
    (next? (step (running [0x13, 0x00, 0x00, 0xE0] .byteOffset))).map (fun t => (t.idx, t.phase)) = some (2, .running) := by decide
theorem test_step_last_word_is_done :
    (next? (step (running [0x12, 0x34, 0xFF] .none))).map (fun t => (t.idx, t.phase, t.diag)) =
      some (2, .done, [.byteCount 3, .malformedLength]) := by decide

/-- The host's device runs a word from the state after reset. -/
theorem test_withFetchWord_reset :
    (next? (step (State.reset.withFetchWord 16 0xD125))).map (fun t => t.out.map (·.instr)) = some [.drw 1 2 5] := by decide

/-- From the state after reset the device gives the state the host's preparation of a one-word pass gives (log 4). -/
theorem test_withFetchWord_is_a_pass :
    next? (hostMoves (beginPass [0xD1, 0x25] .none) State.reset) = some (State.reset.withFetchWord 16 0xD125) := by decide

/-! ## Stops at the edge of the domain -/

theorem test_step_not_running : refusal? (step State.reset) = some .notRunning := by decide
theorem test_step_read_outside : refusal? (step { running [0x00, 0xE0] .none with idx := 1 }) = some .readOutsideBuffer := by decide
theorem test_step_first_byte_missing :
    refusal? (step { running [0x00, 0xE0] .none with ibuf := [(1, 0xE0)] }) = some .byteNotPresent := by decide
theorem test_step_second_byte_missing :
    refusal? (step { running [0x00, 0xE0] .none with ibuf := [(0, 0x00)] }) = some .byteNotPresent := by decide
theorem test_step_len_not_admitted :
    refusal? (step { running [0x00, 0xE0] .byteOffset with len := 65538 }) = some .lenNotAdmitted := by decide
theorem test_start_len_not_admitted :
    refusal? (State.start { State.reset with mode := .addressOffset, len := 65026 }) = some .lenNotAdmitted := by decide
/-- LEN larger than the memory present is refused at START, also where only the odd trailing byte is missing (R234). -/
theorem test_start_odd_byte_missing :
    refusal? (hostMoves [.setLen 1, .start] State.reset) = some .byteNotPresent := by decide
theorem test_start_byte_missing :
    refusal? (hostMoves [.place [0x12, 0x34], .setLen 4, .start] State.reset) = some .byteNotPresent := by decide
theorem test_start_while_running : refusal? (running [0x00, 0xE0] .none).start = some .startWhileRunning := by decide
theorem test_setLen_while_running :
    refusal? (hostMove (.setLen 4) (running [0x00, 0xE0] .none)) = some .inputChangedWhileRunning := by decide
theorem test_setMode_reserved : refusal? (hostMove (.setMode 3) State.reset) = some .reservedMode := by decide

/-! ## Witnesses: hypotheses on records and words -/

theorem test_witness_invalid_tag : (decode 0x8128).tag = 35 := by decide
theorem test_witness_shr_drops_y : decode 0x8126 = decode 0x8136 ∧ (decode 0x8126).tag ∈ [7, 16, 18, 19, 25] := by decide
theorem test_witness_no_bit_dropped : (decode 0x00E0).tag ∉ [7, 16, 18, 19, 25] := by decide
theorem test_witness_sknp_kk : (0xA1 : Byte) ≠ 0x9E ∧ (0x00 : Byte) ≠ 0x9E := by decide
theorem test_witness_wellFormed_boundary :
    (Instr.sys 0xFFF).wellFormed && (Instr.sys 0).wellFormed && (Instr.invalid 0xFFFF).wellFormed &&
      (Instr.drw 0xF 0xF 0xF).wellFormed = true := by decide
theorem test_witness_illegalWord : illegalWord (wordOf 0x8F 0xFF) = true ∧ illegalWord (wordOf 0xF0 0x00) = true := by decide
theorem test_witness_word_below : 65535 < 65536 := by decide

/-! ## Witnesses: the admitted domain, at its edges -/

theorem test_witness_admitted_none : LenAdmitted .none 1000000 := trivial
theorem test_witness_admitted_byte : LenAdmitted .byteOffset 65537 := Nat.le_refl _
theorem test_witness_admitted_address : LenAdmitted .addressOffset 65025 := Nat.le_refl _
theorem test_witness_not_admitted_byte : ¬ LenAdmitted .byteOffset 65538 := Nat.not_succ_le_self _
theorem test_witness_not_admitted_address : ¬ LenAdmitted .addressOffset 65026 := Nat.not_succ_le_self _

/-- `StartEffect` and `StartOutcomes`: LEN bytes in place, and LEN one beyond them. -/
theorem test_witness_bytes_in_place :
    let s : State := { State.reset with len := 3, ibuf := Memory.ofBytes [0x12, 0x34, 0xFF] }
    s.phase ≠ .running ∧ LenAdmitted s.mode s.len ∧ ∀ a, a < s.len → s.ibuf.read a ≠ none := ⟨by decide, trivial, by decide⟩
theorem test_witness_last_byte_missing :
    let s : State := { State.reset with len := 3, ibuf := Memory.ofBytes [0x12, 0x34] }
    s.phase ≠ .running ∧ LenAdmitted s.mode s.len ∧ 2 < s.len ∧ s.ibuf.read 2 = none := ⟨by decide, trivial, by decide, by decide⟩

/-- `WithFetchWordRunsTheWord`: the largest LEN and the last window in it. -/
theorem test_witness_withFetchWord :
    let s : State := { State.reset with mode := .byteOffset, idx := 65534, len := 65537 }
    LenAdmitted s.mode (max s.len (s.idx + 2)) := Nat.le_refl _

/-- `LenOutsideTheDomainIsRefused`: a state outside the domain that is not running. -/
theorem test_witness_state_not_admitted :
    let s : State := { State.reset with mode := .addressOffset, len := 65026 }
    ¬ LenAdmitted s.mode s.len ∧ s.phase ≠ .running := ⟨Nat.not_succ_le_self _, by decide⟩

/-! ## Witnesses: states -/

/-- `FetchIsBigEndian`, `StepRunsTheDecodedInstruction`, `StepEffect` and the last clause of `StepOutcomes`. -/
theorem test_witness_running_word :
    let s := running [0xA2, 0x34] .addressOffset
    s.phase = .running ∧ s.idx + 2 ≤ s.len ∧ s.ibuf.read s.idx = some 0xA2 ∧ s.ibuf.read (s.idx + 1) = some 0x34 ∧
      decodeBytes (0xA2 :: 0x34 :: [0xFF]) = .ok (.ldINnn 0x234, [0xFF]) := by decide
theorem test_witness_running_admitted :
    LenAdmitted (running [0xA2, 0x34] .addressOffset).mode (running [0xA2, 0x34] .addressOffset).len :=
  show 2 ≤ 65025 by decide

/-- `IllegalWordIsData`. -/
theorem test_witness_illegal_window :
    let s := running [0x81, 0x28] .none
    s.phase = .running ∧ s.idx + 2 ≤ s.len ∧ s.ibuf.read s.idx = some 0x81 ∧ s.ibuf.read (s.idx + 1) = some 0x28 ∧
      illegalWord (wordOf 0x81 0x28) = true := by decide
theorem test_witness_illegal_admitted :
    LenAdmitted (running [0x81, 0x28] .none).mode (running [0x81, 0x28] .none).len := trivial

/-- `StepOutcomes`, the clauses that refuse: at the last index, and with either byte missing. -/
theorem test_witness_step_refused :
    State.reset.phase ≠ .running ∧
    (let s := { running [0x00, 0xE0] .none with idx := 1 }; s.phase = .running ∧ s.len < s.idx + 2) ∧
    (let s := { running [0x00, 0xE0] .none with ibuf := [(1, 0xE0)] };
      s.phase = .running ∧ s.idx + 2 ≤ s.len ∧ s.ibuf.read s.idx = none) ∧
    (let s := { running [0x00, 0xE0] .none with ibuf := [(0, 0x00)] };
      s.phase = .running ∧ s.idx + 2 ≤ s.len ∧ s.ibuf.read (s.idx + 1) = none) := by decide

/-- `InstructionFrame`, `StepKeepsPassInv`, `OddLengthWarning`, `MemoryStaysCanonical`: a meaning, a step, a host move and START that
answer a next state. -/
theorem test_witness_exec_next : ∃ t, exec (.ldBVx 7) (running [0x00, 0xE0] .none) = .next t := ⟨_, rfl⟩
theorem test_witness_step_next : ∃ t, step (running [0x00, 0xE0] .none) = .next t := ⟨_, rfl⟩
theorem test_witness_start_next : ∃ t, ({ State.reset with len := 3, ibuf := Memory.ofBytes [0x12, 0x34, 0xFF] } : State).start = .next t := ⟨_, rfl⟩
theorem test_witness_place_next : ∃ t, hostMove (.place [0x12, 0x34]) State.reset = .next t := ⟨_, rfl⟩
theorem test_witness_hostMove_start_next : ∃ t, hostMove .start State.reset = .next t := ⟨_, rfl⟩
theorem test_witness_not_start : (HostMove.setLen 4) ≠ .start := by decide
theorem test_witness_memory_wf : (running [0x00, 0xE0, 0x12] .none).ibuf.wf := by decide
theorem test_witness_equal_memories (a : Nat) :
    (Memory.ofBytes [0x12, 0x34]).read a = (Memory.write [(0, 0x12)] 1 0x34).read a := rfl

/-- `RecordDependsOnTheWindowOnly`: two states that agree on the window and differ elsewhere, both with a step. -/
theorem test_witness_same_window :
    let s := running [0xA2, 0x34] .none
    let s' := { running [0xA2, 0x34, 0xFF] .none with out := [⟨none, .cls, []⟩] }
    s ≠ s' ∧ (∃ t, step s = .next t) ∧ (∃ t, step s' = .next t) ∧ s.mode = s'.mode ∧ s.idx = s'.idx ∧
      s.ibuf.read s.idx = s'.ibuf.read s.idx ∧ s.ibuf.read (s.idx + 1) = s'.ibuf.read (s.idx + 1) :=
  ⟨by decide, ⟨_, rfl⟩, ⟨_, rfl⟩, rfl, rfl, rfl, rfl⟩

/-- `OffsetsAreArithmetic`, `PassIsRestartable`: a run of one step, with an offset appended. -/
theorem test_witness_run : ∃ t, Host.Core.run Sys2Proof.core 1 (running [0xA2, 0x34] .byteOffset) = .next t := ⟨_, rfl⟩

/-- `OffsetsAreArithmetic`, second clause: START answers, and a run of one step after it. -/
theorem test_witness_start_and_run :
    ∃ s0 t, State.start ⟨.idle, 7, [], [], .addressOffset, 2, Memory.ofBytes [0xA2, 0x34]⟩ = .next s0 ∧
      Host.Core.run Sys2Proof.core 1 s0 = .next t := ⟨_, _, rfl, rfl⟩

/-- `IllegalWordIsData`: an illegal word with a window left after it. -/
theorem test_witness_illegal_then_more :
    let s := running [0x81, 0x28, 0x00, 0xE0] .none
    s.idx + 2 < 2 * (s.len / 2) ∧ illegalWord (wordOf 0x81 0x28) = true := by decide

/-- `MemReadAnswers`: a read that ends one byte beyond LEN. -/
theorem test_witness_read_outside : (running [0x00, 0xE0] .none).len < 1 + 2 := by decide

/-- `StartEffect`, `HostMovesOnlyOutsideRunning`, `PassComputesDisassemble`: the state after reset is not running; an idle state is not. -/
theorem test_witness_not_running : State.reset.phase ≠ .running ∧ Phase.idle ≠ .running := by decide

/-- `StepKeepsPassInv`: the invariant holds of the state right after START on a buffer of one word. -/
theorem test_witness_passInv : PassInv (running [0x00, 0xE0] .none) where
  memory := by decide
  domain := trivial
  present := by decide
  index := rfl
  running := by decide
  done := by decide
  diagnostics := rfl
  entries := by intro k e h; cases h

/-- `MachineInvIsKept`: the invariant holds of an Idle state and of a finished pass whose LEN the host has changed since. -/
theorem test_witness_machineInv_idle : MachineInv ⟨.idle, 7, [], [], .none, 9, []⟩ :=
  ⟨by decide, fun h => (nomatch h), fun h => (nomatch h)⟩
theorem test_witness_machineInv_done : MachineInv { State.reset with len := 5 } :=
  ⟨by decide, fun h => (nomatch h), fun _ => ⟨rfl, 0, rfl, rfl⟩⟩
theorem test_witness_machineInv_running : MachineInv (running [0x00, 0xE0] .none) :=
  ⟨by decide, fun _ => test_witness_passInv, fun h => (nomatch h)⟩

/-- `MachineInvIsKept`, `IdxOnlyMovesByTwo`: a running state that the host brings about from power-on, with a step. -/
theorem test_witness_reachable : Reachable (running [0x00, 0xE0] .none) :=
  .host .start (.powerOn ⟨.idle, 7, [], [], .none, 2, Memory.ofBytes [0x00, 0xE0]⟩ rfl (by decide)) rfl

/-- `PassTakesExactlyHalfTheBytes`, `PassIsRestartable`: the preparation of a pass answers a next state. -/
theorem test_witness_beginPass : ∃ t, hostMoves (beginPass [0x12, 0x34, 0xFF] .addressOffset) State.reset = .next t := ⟨_, rfl⟩
theorem test_witness_step_index : 0 < [(0x12 : Byte), 0x34, 0xFF].length / 2 := by decide
theorem test_witness_two_bytes : [(0x12 : Byte), 0x34][2 * 0]? = some 0x12 ∧ [(0x12 : Byte), 0x34][2 * 0 + 1]? = some 0x34 := by decide
theorem test_witness_even_lengths : [(0x00 : Byte), 0xE0].length % 2 = 0 ∧ ([] : List Byte).length % 2 = 0 := by decide

/-- `PassIsRestartable`: two states with the same host inputs and different histories. -/
theorem test_witness_same_inputs :
    let s' : State := { State.reset with phase := .idle, idx := 8, out := [⟨none, .cls, []⟩] }
    s'.phase ≠ .running ∧ State.reset ≠ s' ∧ State.reset.ibuf = s'.ibuf ∧ State.reset.len = s'.len ∧ State.reset.mode = s'.mode := by
  decide

/-- `CountsOfAPass`, `OneByteReachesOneRecord`, `RecordsAreTheSameInEveryMode`: passes that answer, in two modes and with a byte changed. -/
theorem test_witness_disassemble :
    (disassemble [0x00, 0xE0, 0x00, 0xEE] .none).isSome && (disassemble [0x00, 0xE0, 0x00, 0xEE] .addressOffset).isSome &&
      (disassemble ([0x00, 0xE0, 0x00, 0xEE].set 1 0xE1) .none).isSome = true := by decide
theorem test_witness_other_record : 1 ≠ 0 / 2 := by decide

/-! ## Witnesses: lines -/

/-- `LineTermination`, `AlphabetOfLines`, `TextIgnoresModeAndOffset`: a line with a prefix, one without. -/
theorem test_witness_render :
    render .cls (some 0x1000) .addressOffset = some "0x1000\tCLS \n".toList ∧ render .cls none .none = some "CLS \n".toList := by
  decide
theorem test_witness_mode_with_prefix : OffsetMode.byteOffset ≠ .none := by decide

/-- `LengthsOfLines`: the prefixes at the edges of the offsets a pass prints, and the longest line. -/
theorem test_witness_prefix_edges :
    linePrefix .byteOffset (some 0) = some "0x00\t".toList ∧ linePrefix .byteOffset (some 0xFFFE) = some "0xFFFE\t".toList ∧
      linePrefix .addressOffset (some 0x200) = some "0x200\t".toList ∧
      linePrefix .addressOffset (some 0xFFFE) = some "0xFFFE\t".toList := by decide
theorem test_witness_longest_line :
    (render (decode 0xFFFF) (offset .byteOffset 0xFFFE) .byteOffset).map (·.length) = some 29 := by decide
theorem test_witness_offset_fits (o : Nat) (h : offset .byteOffset 0xFFFE = some o) : o ≤ 0xFFFE := by
  cases h; decide

/-- `TextIsInjective`: two spellings that share a mnemonic differ. -/
theorem test_text_differs : text (.seVxKk 1 0x20) ≠ text (.seVxVy 1 2) := by decide

end Sys2Proof.Tests
end

section
/-! The state of a pass: the fields of the state after a step, what START and a step do to the invariants, and the statements about
10_state.md that follow from them. -/

namespace Sys2Proof.Machine

/-! ## The fields of the state after a step -/

section
variable (s : State) (i : Instr) (txt : Text)

@[simp] theorem afterWord_phase :
    (afterWord s i txt).phase = if s.idx + 2 = 2 * (s.len / 2) then .done else .running := rfl
@[simp] theorem afterWord_idx : (afterWord s i txt).idx = s.idx + 2 := rfl
@[simp] theorem afterWord_out :
    (afterWord s i txt).out = s.out ++ [⟨offsetAt s.mode s.idx, i, lineAt s.mode s.idx txt⟩] := rfl
@[simp] theorem afterWord_diag : (afterWord s i txt).diag = s.diag := rfl
@[simp] theorem afterWord_mode : (afterWord s i txt).mode = s.mode := rfl
@[simp] theorem afterWord_len : (afterWord s i txt).len = s.len := rfl
@[simp] theorem afterWord_ibuf : (afterWord s i txt).ibuf = s.ibuf := rfl

/-- A step leaves SD in Running or Done (49_stream_driver.md R193). -/
theorem afterWord_phase_ne_idle : (afterWord s i txt).phase ≠ .idle := by
  rw [afterWord_phase]; split <;> simp

end

/-- All that an instruction can do (41_dispatch.md R97 to R99). -/
theorem exec_eq_next {i : Instr} {s t : State} :
    exec i s = .next t ↔ LenAdmitted s.mode s.len ∧ t = afterWord s i (text i) := by
  rw [exec_eq_emit, emit_eq_next]

/-- A step moves `idx` to the next window (10_state.md R22). -/
theorem step_idx {s t : State} (h : step s = .next t) : t.idx = s.idx + 2 := by
  obtain ⟨-, -, -, b0, b1, -, -, rfl⟩ := step_eq_next.1 h
  exact afterWord_idx ..

/-- Of the host's moves only START writes `idx` (10_state.md R22). -/
theorem hostMove_idx {m : HostMove} {s t : State} (hm : m ≠ .start) (h : hostMove m s = .next t) : t.idx = s.idx := by
  obtain ⟨-, ⟨bytes, -, rfl⟩ | ⟨n, -, rfl⟩ | ⟨bits, mode, -, -, rfl⟩ | ⟨rfl, -⟩⟩ := hostMove_eq_next h
  · rfl
  · rfl
  · rfl
  · exact absurd rfl hm

/-! ## The domain of LEN -/

theorem admitted_eq_false {mode : OffsetMode} {n : Nat} (h : ¬ LenAdmitted mode n) : admitted mode n = false :=
  Bool.eq_false_iff.2 fun ha => h ((admitted_iff mode n).1 ha)

theorem exec_of_not_admitted {s : State} (h : ¬ LenAdmitted s.mode s.len) (i : Instr) :
    exec i s = .refused .lenNotAdmitted := by
  simp [exec_eq_emit, emit_eq, admitted_eq_false h]

theorem start_of_not_admitted {s : State} (h : ¬ LenAdmitted s.mode s.len) (hp : s.phase ≠ .running) :
    s.start = .refused .lenNotAdmitted := by
  simp [State.start, hp, admitted_eq_false h]

/-! ## IBUF after the host places an input -/

theorem Memory.read_ofBytesFrom (start a : Nat) (bs : List Byte) :
    (Memory.ofBytesFrom start bs).read (start + a) = bs[a]? := by
  induction bs generalizing start a with
  | nil => simp [Memory.ofBytesFrom]
  | cons b bs ih =>
    rw [Memory.ofBytesFrom, Memory.read_cons]
    cases a with
    | zero => simp
    | succ a => simpa [Nat.add_assoc, Nat.add_comm 1] using ih (start + 1) a

theorem Memory.read_ofBytes (bs : List Byte) (a : Nat) : (Memory.ofBytes bs).read a = bs[a]? := by
  rw [Memory.ofBytes, ← Memory.read_ofBytesFrom 0 a bs, Nat.zero_add]

/-! ## The invariant of a pass -/

/-- A running pass has a whole window left, because `idx` and the end of the pass are even (10_state.md R22). -/
theorem PassInv.window_left {s : State} (h : PassInv s) (hr : s.phase = .running) : s.idx + 2 ≤ 2 * (s.len / 2) := by
  have hlt := h.running.1 hr
  have hidx := h.index
  omega

/-- A new pass has its invariant, from any values of `idx`, OUT and DIAG (49_stream_driver.md R191). -/
theorem passInv_started {s : State} (hm : s.ibuf.wf) (hd : LenAdmitted s.mode s.len)
    (hb : ∀ a, a < s.len → s.ibuf.read a ≠ none) : PassInv s.started where
  memory := hm
  domain := hd
  present := hb
  index := rfl
  running := by
    rw [started_phase, started_idx, started_len]
    split <;> simp <;> omega
  done := by
    rw [started_phase, started_idx, started_len]
    split <;> simp <;> omega
  diagnostics := startDiag_eq s.len
  entries := by simp

/-- The entry a step appends is the triple of the word at `idx`, which is the index of that entry (10_state.md R29). -/
theorem PassInv.entries_afterWord {s : State} (h : PassInv s) {b0 b1 : Byte} (h0 : s.ibuf.read s.idx = some b0)
    (h1 : s.ibuf.read (s.idx + 1) = some b1) {k : Nat} {e : OutEntry}
    (he : (afterWord s (decode (wordOf b0 b1)) (text (decode (wordOf b0 b1)))).out[k]? = some e) :
    ∃ c0 c1, s.ibuf.read (2 * k) = some c0 ∧ s.ibuf.read (2 * k + 1) = some c1 ∧
      e = ⟨offsetAt s.mode (2 * k), decode (wordOf c0 c1), lineAt s.mode (2 * k) (text (decode (wordOf c0 c1)))⟩ := by
  rw [afterWord_out, List.getElem?_append] at he
  split at he
  · exact h.entries k e he
  · obtain ⟨hk, rfl⟩ := List.getElem?_eq_some_iff.1 he
    have hidx : s.idx = 2 * k := by
      have hlast : k - s.out.length < 1 := hk
      have := h.index
      omega
    rw [hidx] at h0 h1
    exact ⟨b0, b1, h0, h1, by simp [hidx]⟩

/-- The step of a running pass keeps the invariant (49_stream_driver.md R193). -/
theorem PassInv.afterWord_decode {s : State} (h : PassInv s) (hr : s.phase = .running) {b0 b1 : Byte}
    (h0 : s.ibuf.read s.idx = some b0) (h1 : s.ibuf.read (s.idx + 1) = some b1) :
    PassInv (afterWord s (decode (wordOf b0 b1)) (text (decode (wordOf b0 b1)))) where
  memory := h.memory
  domain := h.domain
  present := h.present
  index := by simp [h.index, Nat.mul_add]
  running := by
    have := h.window_left hr
    rw [afterWord_phase, afterWord_idx, afterWord_len]
    split <;> simp <;> omega
  done := by
    rw [afterWord_phase, afterWord_idx, afterWord_len]
    split <;> simp <;> omega
  diagnostics := h.diagnostics
  entries := fun _ _ he => h.entries_afterWord h0 h1 he

theorem step_keeps_passInv {s t : State} (h : PassInv s) (ht : step s = .next t) : PassInv t := by
  obtain ⟨hr, -, -, b0, b1, h0, h1, rfl⟩ := step_eq_next.1 ht
  exact h.afterWord_decode hr h0 h1

/-! ## The invariant of the machine -/

/-- A finished pass is complete for its own LEN. -/
theorem PassInv.machineInv {s : State} (h : PassInv s) : MachineInv s where
  memory := h.memory
  running := fun _ => h
  done := fun hd => ⟨h.index, s.len, h.done.1 hd, h.diagnostics⟩

theorem step_keeps_machineInv {s t : State} (h : MachineInv s) (ht : step s = .next t) : MachineInv t :=
  have hr : s.phase = .running := (step_eq_next.1 ht).1
  (step_keeps_passInv (h.running hr) ht).machineInv

/-- Before the first START the invariant asks for a canonical IBUF only (10_state.md R33). -/
theorem machineInv_of_idle {s : State} (hp : s.phase = .idle) (hm : s.ibuf.wf) : MachineInv s :=
  ⟨hm, fun hr => by simp [hp] at hr, fun hd => by simp [hp] at hd⟩

/-- Outside Running the host's parameters may be any with a canonical IBUF: a finished result does not depend on them
(70_reset_and_hazards.md R235). -/
theorem MachineInv.setParameters {s : State} (h : MachineInv s) (hp : s.phase ≠ .running) (mode : OffsetMode) (n : Nat)
    {m : Memory} (hm : m.wf) : MachineInv { s with mode := mode, len := n, ibuf := m } :=
  ⟨hm, fun hr => absurd hr hp, h.done⟩

theorem hostMove_keeps_machineInv {m : HostMove} {s t : State} (h : MachineInv s) (ht : hostMove m s = .next t) :
    MachineInv t := by
  obtain ⟨hp, ⟨bytes, -, rfl⟩ | ⟨n, -, rfl⟩ | ⟨bits, mode, -, -, rfl⟩ | ⟨-, hd, hb, rfl⟩⟩ := hostMove_eq_next ht
  · exact h.setParameters hp s.mode s.len (Memory.ofBytes_wf bytes)
  · exact h.setParameters hp s.mode n h.memory
  · exact h.setParameters hp mode s.len h.memory
  · exact (passInv_started h.memory hd hb).machineInv

theorem Reachable.machineInv {s : State} (h : Reachable s) : MachineInv s := by
  induction h with
  | powerOn s hp hm => exact machineInv_of_idle hp hm
  | host m _ ht ih => exact hostMove_keeps_machineInv ih ht
  | step _ ht ih => exact step_keeps_machineInv ih ht

/-- In a reachable running state the pass has its invariant. -/
theorem Reachable.passInv {s : State} (h : Reachable s) (hr : s.phase = .running) : PassInv s := h.machineInv.running hr

/-! ## Reset -/

theorem started_emptyInput (idx : Nat) (out : List OutEntry) (diag : List Diag) :
    (State.mk .idle idx out diag .none 0 []).started = State.reset := by
  simp [State.started, State.reset, startDiag_eq]

/-- START on the empty input gives the state after reset, whatever `idx`, OUT and DIAG were (10_state.md R33). -/
theorem start_emptyInput (idx : Nat) (out : List OutEntry) (diag : List Diag) :
    (State.mk .idle idx out diag .none 0 []).start = .next State.reset :=
  start_eq_next.2 ⟨nofun, trivial, nofun, (started_emptyInput idx out diag).symm⟩

theorem passInv_reset : PassInv State.reset :=
  passInv_started (s := ⟨.idle, 0, [], [], .none, 0, []⟩) reset_memory_wf trivial nofun

theorem reachable_reset : Reachable State.reset :=
  .host .start (.powerOn ⟨.idle, 0, [], [], .none, 0, []⟩ rfl reset_memory_wf) (start_emptyInput 0 [] [])

/-! ## The statements -/

/-- Settles O39: a step appends the entry of the word at `idx`, and `idx` is twice the number of entries before it. -/
theorem stepKeepsPassInv : Obligations.StepKeepsPassInv :=
  fun _ _ h ht => step_keeps_passInv h ht

/-- Settles O43: each kind of move keeps the invariant, so an induction over the moves gives it in every reachable state. -/
theorem machineInvIsKept : Obligations.MachineInvIsKept :=
  ⟨fun _ _ h ht => step_keeps_machineInv h ht, fun _ _ _ h ht => hostMove_keeps_machineInv h ht,
    fun _ hp hm => machineInv_of_idle hp hm, fun _ h => h.machineInv⟩

/-- Settles O21: every instruction leaves `afterWord` of its own record. -/
theorem instructionFrame : Obligations.InstructionFrame := by
  intro i s t h
  obtain ⟨-, rfl⟩ := exec_eq_next.1 h
  exact ⟨rfl, rfl, rfl, fun _ => rfl, rfl, afterWord_phase_ne_idle _ _ _, _, rfl, rfl, rfl⟩

/-- Settles O24: the bounds are those of the invariant of a pass, which every reachable running state has. -/
theorem idxOnlyMovesByTwo : Obligations.IdxOnlyMovesByTwo := by
  refine ⟨fun s t h => ?_, fun _ _ _ hm h => hostMove_idx hm h, fun _ _ h => step_idx h, fun s hs hr => ?_,
    fun s t hs ht => ?_⟩
  · obtain ⟨-, -, -, rfl⟩ := start_eq_next.1 h
    exact started_idx s
  · have hinv := hs.passInv hr
    exact ⟨by have := hinv.index; omega, hinv.running.1 hr⟩
  · obtain ⟨hr, -, -, b0, b1, -, -, rfl⟩ := step_eq_next.1 ht
    exact ⟨(hs.passInv hr).window_left hr, (step_keeps_passInv (hs.passInv hr) ht).done⟩

/-- Settles O33: both read the domain of LEN before they do anything. -/
theorem lenOutsideTheDomainIsRefused : Obligations.LenOutsideTheDomainIsRefused :=
  fun _ h => ⟨exec_of_not_admitted h, start_of_not_admitted h⟩

/-- Settles O36, by induction on the bytes placed, for every index they start at. -/
theorem placedInputIsReadBack : Obligations.PlacedInputIsReadBack := by
  intro s t bytes h a
  obtain ⟨-, ⟨bs, hbs, rfl⟩ | ⟨n, hn, -⟩ | ⟨bits, mode, hm, -⟩ | ⟨hm, -⟩⟩ := hostMove_eq_next h
  · cases hbs
    exact Memory.read_ofBytes bytes a
  · cases hn
  · cases hm
  · cases hm

/-- Settles O29. -/
theorem resetIsStartOnTheEmptyInput : Obligations.ResetIsStartOnTheEmptyInput :=
  ⟨start_emptyInput, rfl, rfl, rfl, rfl⟩

/-- Settles O32: of the four bit patterns only 3 names no mode, and `setMode` refuses it before it looks at the phase. -/
theorem modeEncoding : Obligations.ModeEncoding := by
  refine ⟨rfl, rfl, rfl, fun m => ?_, by decide, fun _ => rfl⟩
  cases m <;> rfl

/-- Settles O42. -/
theorem resetHasPassInv : Obligations.ResetHasPassInv := ⟨passInv_reset, reachable_reset⟩

end Sys2Proof.Machine
end

section
/-! IBUF: the number of the word a fetch makes, MemRead of two bytes, the canonical form and what the reads say of it, and the statements
about 20_memory.md. -/

namespace Sys2Proof.Machine

/-! ## The word of two bytes -/

/-- The shift and the OR of R42 put the first byte above the second: the word `b0 ++ b1` has these two bytes. -/
theorem wordOf_eq_append (b0 b1 : Byte) : wordOf b0 b1 = b0 ++ b1 :=
  calc wordOf b0 b1 = wordOf (highByte (b0 ++ b1)) (lowByte (b0 ++ b1)) := by
        rw [highByte, lowByte, Laws.slice_high, Laws.slice_low]
    _ = b0 ++ b1 := Laws.wordOf_bytes (b0 ++ b1)

/-- The two bytes share no bit, so the word is the sum of R42. -/
theorem wordOf_toNat (b0 b1 : Byte) : (wordOf b0 b1).toNat = 256 * b0.toNat + b1.toNat := by
  rw [wordOf_eq_append, BitVec.toNat_append, ← Nat.shiftLeft_add_eq_or_of_lt b1.isLt, Nat.shiftLeft_eq]
  omega

/-! ## MemRead -/

theorem Memory.readMany_zero (m : Memory) (a : Nat) : m.readMany a 0 = some [] := rfl

/-- A one-byte MemRead answers the byte at its index. -/
theorem memRead_one_eq_ok {s : State} {a : Nat} {b : Byte} :
    s.memRead a 1 = .ok [b] ↔ a + 1 ≤ s.len ∧ s.ibuf.read a = some b := by
  simp [memRead_eq_ok, Memory.readMany_succ, Memory.readMany_zero]

/-- A two-byte MemRead answers the bytes at its index and at the next. -/
theorem memRead_two_eq_ok {s : State} {a : Nat} {b0 b1 : Byte} :
    s.memRead a 2 = .ok [b0, b1] ↔ a + 2 ≤ s.len ∧ s.ibuf.read a = some b0 ∧ s.ibuf.read (a + 1) = some b1 := by
  simp [memRead_eq_ok, Memory.readMany_succ, Memory.readMany_zero]

/-- MemRead outside `0 .. LEN-1` is refused (20_memory.md R41). -/
theorem memRead_of_len_lt {s : State} {a n : Nat} (h : s.len < a + n) : s.memRead a n = .error .readOutsideBuffer :=
  if_neg (Nat.not_le.2 h)

/-! ## The canonical form -/

theorem step_keeps_memory_wf {s t : State} (hm : s.ibuf.wf) (h : step s = .next t) : t.ibuf.wf := by
  obtain ⟨-, -, -, b0, b1, -, -, rfl⟩ := step_eq_next.1 h
  exact hm

theorem exec_keeps_memory_wf {i : Instr} {s t : State} (hm : s.ibuf.wf) (h : exec i s = .next t) : t.ibuf.wf := by
  obtain ⟨-, rfl⟩ := exec_eq_next.1 h
  exact hm

/-- The host replaces IBUF by a whole input or leaves it as it is. -/
theorem hostMove_keeps_memory_wf {m : HostMove} {s t : State} (hm : s.ibuf.wf) (h : hostMove m s = .next t) :
    t.ibuf.wf := by
  obtain ⟨-, ⟨bytes, -, rfl⟩ | ⟨n, -, rfl⟩ | ⟨bits, mode, -, -, rfl⟩ | ⟨-, -, -, rfl⟩⟩ := hostMove_eq_next h
  · exact Memory.ofBytes_wf bytes
  · exact hm
  · exact hm
  · exact hm

/-- In canonical form an index is listed at most once, so the entries are exactly what the reads answer. -/
theorem Memory.mem_iff_read {m : Memory} (h : m.wf) (a : Nat) (b : Byte) : (a, b) ∈ m ↔ m.read a = some b := by
  induction m with
  | nil => simp
  | cons p m ih =>
    obtain ⟨k, v⟩ := p
    obtain ⟨hk, hm⟩ := List.pairwise_cons.1 h
    rw [List.mem_cons, Memory.read_cons]
    split
    next hka =>
      have hnot : (a, b) ∉ m := fun hp => absurd (hk _ hp) (by simp [hka])
      simp [hnot, hka, eq_comm]
    next hka => simp [ih hm, Ne.symm hka]

/-! ## The statements -/

/-- Settles O4: the word is one byte above the other, and the fetch answers it wherever the window lies inside LEN. -/
theorem fetchIsBigEndian : Obligations.FetchIsBigEndian :=
  ⟨wordOf_toNat, fun _ b0 b1 hl h0 h1 => ⟨wordOf b0 b1, fetch_eq_ok.2 ⟨hl, b0, b1, h0, h1, rfl⟩, wordOf_toNat b0 b1⟩,
    by decide⟩

/-- Settles O35: the bound of R41 for two bytes is the bound of the second one-byte read, and implies that of the first. -/
theorem memReadAnswers : Obligations.MemReadAnswers := by
  intro s addr n bs
  refine ⟨by rw [memRead_eq_ok, Memory.readMany_eq_some], memRead_of_len_lt, fun b0 b1 => ?_⟩
  rw [memRead_two_eq_ok, memRead_one_eq_ok, memRead_one_eq_ok]
  constructor
  · rintro ⟨hl, h0, h1⟩
    exact ⟨⟨by omega, h0⟩, hl, h1⟩
  · rintro ⟨⟨-, h0⟩, hl, h1⟩
    exact ⟨hl, h0, h1⟩

/-- Settles O37: instructions and steps leave IBUF as it is; the host places a whole input, or leaves it too. -/
theorem memoryStaysCanonical : Obligations.MemoryStaysCanonical :=
  ⟨fun _ _ => step_keeps_memory_wf, fun _ _ _ => exec_keeps_memory_wf, fun _ _ _ => hostMove_keeps_memory_wf,
    fun _ => Memory.write_wf⟩

/-- Settles O38: the reads determine the entries, and the entries, being strictly rising, their order. -/
theorem canonicalMemoriesAreDeterminedByReads : Obligations.CanonicalMemoriesAreDeterminedByReads := by
  intro m m' hm hm' hread
  have hirrefl : Std.Irrefl fun p q : Nat × Byte => p.1 < q.1 := ⟨fun p => Nat.lt_irrefl p.1⟩
  have hanti : Std.Antisymm fun p q : Nat × Byte => p.1 < q.1 := ⟨fun _ _ h h' => absurd h (Nat.lt_asymm h')⟩
  refine hm.eq_of_mem_iff hm' fun (a, b) => ?_
  rw [Memory.mem_iff_read hm, Memory.mem_iff_read hm', hread]

end Sys2Proof.Machine
end

section
/-! FX on numerals and on masks, the families of DEC, and the statements of 30_encoding.md: the encoder, the first-match
table, the number of words per case, the mnemonics. -/

namespace Sys2Proof

open Laws

/-! ## Words by their fields -/

theorem word_eq_iff_op_nnn {w v : Word} : w = v ↔ (fields w).op = (fields v).op ∧ (fields w).nnn = (fields v).nnn := by
  refine ⟨by rintro rfl; exact ⟨rfl, rfl⟩, fun ⟨hop, hnnn⟩ => ?_⟩
  rw [word_eq_op_nnn w, word_eq_op_nnn v, hop, hnnn]

theorem word_eq_iff_op_x_kk {w v : Word} :
    w = v ↔ (fields w).op = (fields v).op ∧ (fields w).x = (fields v).x ∧ (fields w).kk = (fields v).kk := by
  refine ⟨by rintro rfl; exact ⟨rfl, rfl, rfl⟩, fun ⟨hop, hx, hkk⟩ => ?_⟩
  rw [word_eq_op_x_kk w, word_eq_op_x_kk v, hop, hx, hkk]

theorem word_eq_iff_op_x_y_n {w v : Word} :
    w = v ↔ (fields w).op = (fields v).op ∧ (fields w).x = (fields v).x ∧ (fields w).y = (fields v).y ∧
      (fields w).n = (fields v).n := by
  refine ⟨by rintro rfl; exact ⟨rfl, rfl, rfl, rfl⟩, fun ⟨hop, hx, hy, hn⟩ => ?_⟩
  rw [word_eq_op_x_y_n w, word_eq_op_x_y_n v, hop, hx, hy, hn]

section
variable (m : Nat)

@[simp] theorem op_ofNat : (fields (BitVec.ofNat 16 m)).op = BitVec.ofNat 4 (m / 4096) :=
  BitVec.eq_of_toNat_eq (by simp [fields, Nat.shiftRight_eq_div_pow]; omega)
@[simp] theorem x_ofNat : (fields (BitVec.ofNat 16 m)).x = BitVec.ofNat 4 (m / 256) :=
  BitVec.eq_of_toNat_eq (by simp [fields, Nat.shiftRight_eq_div_pow]; omega)
@[simp] theorem y_ofNat : (fields (BitVec.ofNat 16 m)).y = BitVec.ofNat 4 (m / 16) :=
  BitVec.eq_of_toNat_eq (by simp [fields, Nat.shiftRight_eq_div_pow]; omega)
@[simp] theorem n_ofNat : (fields (BitVec.ofNat 16 m)).n = BitVec.ofNat 4 m := BitVec.eq_of_toNat_eq (by simp [fields])
@[simp] theorem kk_ofNat : (fields (BitVec.ofNat 16 m)).kk = BitVec.ofNat 8 m := BitVec.eq_of_toNat_eq (by simp [fields])
@[simp] theorem nnn_ofNat : (fields (BitVec.ofNat 16 m)).nnn = BitVec.ofNat 12 m := BitVec.eq_of_toNat_eq (by simp [fields])

end

section
variable (w v : Word)

@[simp] theorem op_and : (fields (w &&& v)).op = (fields w).op &&& (fields v).op := BitVec.extractLsb'_and
@[simp] theorem x_and : (fields (w &&& v)).x = (fields w).x &&& (fields v).x := BitVec.extractLsb'_and
@[simp] theorem y_and : (fields (w &&& v)).y = (fields w).y &&& (fields v).y := BitVec.extractLsb'_and
@[simp] theorem n_and : (fields (w &&& v)).n = (fields w).n &&& (fields v).n := BitVec.extractLsb'_and
@[simp] theorem kk_and : (fields (w &&& v)).kk = (fields w).kk &&& (fields v).kk := BitVec.extractLsb'_and
@[simp] theorem nnn_and : (fields (w &&& v)).nnn = (fields w).nnn &&& (fields v).nnn := BitVec.extractLsb'_and

end

/-! ## The families of DEC -/

section
variable {w : Word}

theorem decode_family0 (h : (fields w).op = 0x0) : decode w = family0 w (fields w).nnn := by simp [decode, h]

theorem decode_family8 (h : (fields w).op = 0x8) : decode w = family8 w (fields w).x (fields w).y (fields w).n := by
  simp [decode, h]

theorem decode_familyE (h : (fields w).op = 0xE) : decode w = familyE (fields w).x (fields w).kk := by simp [decode, h]

theorem decode_familyF (h : (fields w).op = 0xF) : decode w = familyF w (fields w).x (fields w).kk := by simp [decode, h]

/-- In family 0 the exact words of `CLS` and `RET` are two values of `nnn` (42_family_0.md R102). -/
theorem family0_tag_eq_2 (h : (fields w).op = 0x0) :
    (family0 w (fields w).nnn).tag = 2 ↔ (fields w).nnn ∉ ({0x0E0, 0x0EE} : Finset Addr) := by
  unfold family0
  split_ifs <;> simp_all [Instr.tag, word_eq_iff_op_nnn]

theorem family8_tag_eq_18 (w : Word) (x y n : Nibble) : (family8 w x y n).tag = 18 ↔ n = 0xE := by
  unfold family8
  split <;> simp_all [Instr.tag]

theorem family8_tag_eq_35 (w : Word) (x y n : Nibble) : (family8 w x y n).tag = 35 ↔ n ∈ unmatchedNs := by
  unfold family8
  split <;> simp_all [Instr.tag, unmatchedNs]
  -- the last arm: the nine matched values and the seven of `unmatchedNs` are all sixteen
  bv_omega

theorem familyE_tag_eq_25 (x : Nibble) (kk : Byte) : (familyE x kk).tag = 25 ↔ kk ≠ 0x9E := by
  unfold familyE
  split_ifs <;> simp_all [Instr.tag]

theorem familyF_tag_eq_35 (w : Word) (x : Nibble) (kk : Byte) : (familyF w x kk).tag = 35 ↔ kk ∉ matchedKks := by
  unfold familyF
  split <;> simp_all [Instr.tag, matchedKks]

theorem family8_of_mem_unmatchedNs {x y n : Nibble} (h : n ∈ unmatchedNs) : family8 w x y n = .invalid w := by
  have htag := (family8_tag_eq_35 w x y n).2 h
  unfold family8 at htag ⊢
  split <;> simp_all [Instr.tag]

theorem familyF_of_notMem_matchedKks {x : Nibble} {kk : Byte} (h : kk ∉ matchedKks) : familyF w x kk = .invalid w := by
  unfold familyF
  split <;> simp_all [matchedKks]

/-- `illegalWord` in the fields DEC reads (30_encoding.md R68). -/
theorem illegalWord_iff :
    illegalWord w ↔
      (fields w).op = 0x8 ∧ (fields w).n ∈ unmatchedNs ∨ (fields w).op = 0xF ∧ (fields w).kk ∉ matchedKks := by
  simp [illegalWord, fields]

theorem decode_of_illegalWord (h : illegalWord w) : decode w = .invalid w := by
  obtain ⟨hop, hn⟩ | ⟨hop, hkk⟩ := illegalWord_iff.1 h
  · rw [decode_family8 hop, family8_of_mem_unmatchedNs hn]
  · rw [decode_familyF hop, familyF_of_notMem_matchedKks hkk]

end

/-! ## The encoder -/

theorem decode_encode_sys {nnn : Addr} (h : nnn ≠ 0x0E0#12 ∧ nnn ≠ 0x0EE#12) : decode (0x0#4 ++ nnn) = .sys nnn := by
  simp [decode_family0, family0, word_eq_iff_op_nnn, h]

/-- FX reads back the fields the encoder wrote, and they select the arm of the record. -/
theorem decode_encode {i : Instr} (h : i.wellFormed) : decode (encode i) = i := by
  cases i with
  | invalid w => exact decode_of_illegalWord h
  | sys nnn => exact decode_encode_sys (by simpa [Instr.wellFormed] using h)
  | cls | ret => rfl
  | _ => simp [encode, decode, family8, familyE, familyF]

theorem decodeBytes_encodeBytes (i : Instr) (rest : List Byte) :
    decodeBytes (encodeBytes i ++ rest) = .ok (decode (encode i), rest) := by
  rw [encodeBytes, List.cons_append, List.cons_append, List.nil_append, decodeBytes, wordOf_bytes]

/-! ## When a row fits

The masks of the table are written as numerals: where one has only ones, it keeps the field. -/

theorem nibble_and_ones (v : Nibble) : v &&& 15#4 = v := BitVec.and_allOnes

theorem byte_and_ones (v : Byte) : v &&& 255#8 = v := BitVec.and_allOnes

theorem word_and_ones (v : Word) : v &&& 65535#16 = v := BitVec.and_allOnes

namespace Row

theorem fits_iff {r : Row} {w : Word} : r.fits w ↔ w &&& r.mask = r.value := beq_iff_eq

section
variable {r : Row} (w : Word)

theorem fits_of_mask_word (hm : r.mask = 0xFFFF) : r.fits w = decide (w = r.value) := by
  rw [Bool.eq_iff_iff]
  simp [fits_iff, hm, word_and_ones]

theorem fits_of_mask_op (hm : r.mask = 0xF000) (hv : (fields r.value).nnn = 0) :
    r.fits w = decide ((fields w).op = (fields r.value).op) := by
  rw [Bool.eq_iff_iff]
  simp [fits_iff, word_eq_iff_op_nnn, hm, hv, nibble_and_ones]

theorem fits_of_mask_op_n (hm : r.mask = 0xF00F) (hx : (fields r.value).x = 0) (hy : (fields r.value).y = 0) :
    r.fits w = decide ((fields w).op = (fields r.value).op ∧ (fields w).n = (fields r.value).n) := by
  rw [Bool.eq_iff_iff]
  simp [fits_iff, word_eq_iff_op_x_y_n, hm, hx, hy, nibble_and_ones]

theorem fits_of_mask_op_kk (hm : r.mask = 0xF0FF) (hx : (fields r.value).x = 0) :
    r.fits w = decide ((fields w).op = (fields r.value).op ∧ (fields w).kk = (fields r.value).kk) := by
  rw [Bool.eq_iff_iff]
  simp [fits_iff, word_eq_iff_op_x_kk, hm, hx, nibble_and_ones, byte_and_ones]

end

/-! ## What the rows of the table have in common -/

/-- Every mask of the table keeps the primary nibble (30_encoding.md R67). -/
theorem op_mask : ∀ r ∈ opcodeTable, (fields r.mask).op = BitVec.allOnes 4 := by decide

theorem op_eq_of_fits {r : Row} (hr : r ∈ opcodeTable) {w : Word} (h : r.fits w) :
    (fields r.value).op = (fields w).op := by
  rw [← fits_iff.1 h, op_and, op_mask r hr, BitVec.and_allOnes]

theorem tag_build : ∀ r ∈ opcodeTable, ∀ w f, (r.build w f).tag = r.tag := by
  simp [opcodeTable, opcodeTableLow, opcodeTableMiddle, opcodeTableHigh, Instr.tag]

/-- The family a row stands in decides the format where its record is `INVALID`. -/
theorem format_build :
    ∀ r ∈ opcodeTable, ∀ w f, (fields w).op = (fields r.value).op → (r.build w f).format = r.format := by
  simp +contextual [opcodeTable, opcodeTableLow, opcodeTableMiddle, opcodeTableHigh, Instr.format]

end Row

/-! ## The table, family by family -/

/-- The rows of one family, in the order of the table. -/
def familyRows (a : Nibble) : List Row := opcodeTable.filter fun r => (fields r.value).op == a

theorem firstRow_eq (w : Word) : firstRow w = (familyRows (fields w).op).find? (·.fits w) := by
  rw [familyRows, List.find?_filter, firstRow]
  refine List.find?_congr fun r hr => ?_
  rw [Bool.eq_iff_iff]
  simpa using Row.op_eq_of_fits hr

theorem tableDecode_of_family {w : Word} {a : Nibble} {rows : List Row} (h : (fields w).op = a) (hr : familyRows a = rows) :
    tableDecode w = (rows.find? (·.fits w)).map fun r => r.build w (fields w) := by
  rw [tableDecode, firstRow_eq, h, hr]

/-- The table in a family of one instruction. -/
theorem tableDecode_of_single_row {w : Word} {a : Nibble} {r : Row} (h : (fields w).op = a) (hr : familyRows a = [r])
    (hm : r.mask = 0xF000) (hv : r.value = a ++ 0#12) : tableDecode w = some (r.build w (fields w)) := by
  simp [tableDecode_of_family h hr, Row.fits_of_mask_op, hm, hv, h]

section
variable {w : Word}

theorem tableDecode_family0 (h : (fields w).op = 0x0) : tableDecode w = some (family0 w (fields w).nnn) := by
  rw [tableDecode_of_family h (rows := opcodeTableLow.take 3) rfl, family0]
  split_ifs <;> simp [opcodeTableLow, Row.fits_of_mask_word, Row.fits_of_mask_op, *]

theorem tableDecode_family8 (h : (fields w).op = 0x8) :
    tableDecode w = some (family8 w (fields w).x (fields w).y (fields w).n) := by
  rw [tableDecode_of_family h (rows := opcodeTableMiddle.take 10) rfl]
  unfold family8
  split <;> simp_all [opcodeTableMiddle, Row.fits_of_mask_op_n, Row.fits_of_mask_op]

theorem tableDecode_familyE (h : (fields w).op = 0xE) : tableDecode w = some (familyE (fields w).x (fields w).kk) := by
  rw [tableDecode_of_family h (rows := opcodeTableHigh.take 2) rfl, familyE]
  split_ifs <;> simp [opcodeTableHigh, Row.fits_of_mask_op_kk, Row.fits_of_mask_op, *]

theorem tableDecode_familyF (h : (fields w).op = 0xF) : tableDecode w = some (familyF w (fields w).x (fields w).kk) := by
  rw [tableDecode_of_family h (rows := opcodeTableHigh.drop 2) rfl]
  unfold familyF
  split <;> simp_all [opcodeTableHigh, Row.fits_of_mask_op_kk, Row.fits_of_mask_op]

end

/-- In a family of one instruction the table has one row; in the four others it makes the comparisons DEC makes. -/
theorem tableDecode_eq_decode (w : Word) : tableDecode w = some (decode w) := by
  unfold decode
  dsimp only
  split
  case h_1 h => exact tableDecode_family0 h
  case h_9 h => exact tableDecode_family8 h
  case h_15 h => exact tableDecode_familyE h
  case h_16 h => exact tableDecode_familyF h
  -- the arm of R95: some nibble is the primary one
  case h_17 => simp only [imp_false] at *; bv_omega
  all_goals exact tableDecode_of_single_row ‹_› rfl rfl rfl

/-- The first row that fits a word reads it as DEC does. -/
theorem exists_firstRow (w : Word) :
    ∃ r, firstRow w = some r ∧ r ∈ opcodeTable ∧ r.fits w ∧ r.build w (fields w) = decode w := by
  obtain ⟨r, hr, hb⟩ := Option.map_eq_some_iff.1 (tableDecode_eq_decode w)
  exact ⟨r, hr, List.mem_of_find?_eq_some hr, List.find?_some (p := fun r : Row => r.fits w) hr, hb⟩

/-! ## The words of a case -/

/-- A word's record has the tag of a row of its family. -/
theorem tag_decode_mem (w : Word) : (decode w).tag ∈ (familyRows (fields w).op).map (·.tag) := by
  obtain ⟨r, -, hr, hfits, hb⟩ := exists_firstRow w
  rw [← hb, Row.tag_build r hr]
  exact List.mem_map_of_mem (List.mem_filter.2 ⟨hr, beq_iff_eq.2 (Row.op_eq_of_fits hr hfits)⟩)

/-- A tag of one family only is decided by that family. -/
theorem tag_decode_eq_iff {w : Word} {t : Nat} {a : Nibble} {p : Prop}
    (family : ∀ b, t ∈ (familyRows b).map (·.tag) → b = a) (h : (fields w).op = a → ((decode w).tag = t ↔ p)) :
    (decode w).tag = t ↔ (fields w).op = a ∧ p :=
  (and_iff_right_of_imp fun ht => family _ (ht ▸ tag_decode_mem w)).symm.trans (and_congr_right h)

theorem tag_decode_eq_2 (w : Word) :
    (decode w).tag = 2 ↔ (fields w).op = 0x0 ∧ (fields w).nnn ∈ ({0x0E0, 0x0EE} : Finset Addr)ᶜ :=
  tag_decode_eq_iff (by decide) fun h => by rw [decode_family0 h, family0_tag_eq_2 h, Finset.mem_compl]

theorem tag_decode_eq_18 (w : Word) :
    (decode w).tag = 18 ↔ (fields w).op = 0x8 ∧ (fields w).n ∈ ({0xE} : Finset Nibble) :=
  tag_decode_eq_iff (by decide) fun h => by rw [decode_family8 h, family8_tag_eq_18, Finset.mem_singleton]

theorem tag_decode_eq_25 (w : Word) :
    (decode w).tag = 25 ↔ (fields w).op = 0xE ∧ (fields w).kk ∈ ({0x9E} : Finset Byte)ᶜ :=
  tag_decode_eq_iff (by decide) fun h => by
    rw [decode_familyE h, familyE_tag_eq_25, Finset.mem_compl, Finset.mem_singleton]

theorem tag_decode_eq_35 (w : Word) : (decode w).tag = 35 ↔ illegalWord w := by
  have family : ∀ a, 35 ∈ (familyRows a).map (·.tag) → a = 0x8 ∨ a = 0xF := by decide
  refine ⟨fun h => illegalWord_iff.2 ?_, fun h => by rw [decode_of_illegalWord h, Instr.tag]⟩
  obtain hop | hop := family _ (h ▸ tag_decode_mem w)
  · rw [decode_family8 hop, family8_tag_eq_35] at h
    exact .inl ⟨hop, h⟩
  · rw [decode_familyF hop, familyF_tag_eq_35] at h
    exact .inr ⟨hop, h⟩

/-! ## Counting words by their fields -/

theorem card_bitVec (n : Nat) : Fintype.card (BitVec n) = 2 ^ n := by
  rw [← FinEnum.card_eq_fintypeCard, FinEnum.card_bitVec]

section
variable (a : Nibble)

/-- In one family a word is its `nnn`. -/
theorem card_op_nnn (s : Finset Addr) :
    (Finset.univ.filter fun w : Word => (fields w).op = a ∧ (fields w).nnn ∈ s).card = s.card := by
  refine Finset.card_nbij' (fun w => (fields w).nnn) (a ++ ·) ?_ ?_ ?_ ?_
  · intro w hw; simp_all
  · intro nnn h; simp_all
  · intro w hw
    obtain ⟨-, rfl, -⟩ := Finset.mem_filter.1 hw
    exact (word_eq_op_nnn w).symm
  · intro nnn _; exact nnn_nnn a nnn

/-- The high bits of a vector are free where its low bits lie in a set. -/
theorem card_low_slice {l k m : Nat} (h : l + k = m) (s : Finset (BitVec k)) :
    (Finset.univ.filter fun v : BitVec m => v.extractLsb' 0 k ∈ s).card = 2 ^ l * s.card := by
  subst h
  rw [← card_bitVec, ← Finset.card_univ, ← Finset.card_product]
  refine Finset.card_nbij' (fun v => (v.extractLsb' k l, v.extractLsb' 0 k)) (fun p => p.1 ++ p.2) ?_ ?_ ?_ ?_
  · intro v hv; simp_all
  · intro p hp; simp_all [slice_low]
  · intro v _; exact (append_slices v).symm
  · intro p _; exact Prod.ext (slice_high p.1 p.2) (slice_low p.1 p.2)

theorem card_op_low_slice {l k : Nat} (h : l + k = 12) (s : Finset (BitVec k)) :
    (Finset.univ.filter fun w : Word => (fields w).op = a ∧ w.extractLsb' 0 k ∈ s).card = 2 ^ l * s.card := by
  have low (w : Word) : w.extractLsb' 0 k ∈ s ↔
      (fields w).nnn ∈ Finset.univ.filter fun v : Addr => v.extractLsb' 0 k ∈ s := by
    rw [Finset.mem_filter_univ, show (fields w).nnn = w.extractLsb' 0 12 from rfl, slice_of_slice w 0 k 12 (by omega)]
  simp only [low, card_op_nnn]
  exact card_low_slice h s

theorem card_op_kk (s : Finset Byte) :
    (Finset.univ.filter fun w : Word => (fields w).op = a ∧ (fields w).kk ∈ s).card = 16 * s.card :=
  card_op_low_slice a (l := 4) rfl s

theorem card_op_n (s : Finset Nibble) :
    (Finset.univ.filter fun w : Word => (fields w).op = a ∧ (fields w).n ∈ s).card = 256 * s.card :=
  card_op_low_slice a (l := 8) rfl s

end

/-- The two groups of illegal words lie in different families, so their numbers add up (30_encoding.md R68). -/
theorem card_illegalWord : (Finset.univ.filter fun w : Word => illegalWord w).card = 1792 + 3952 := by
  have hset (w : Word) : illegalWord w ↔ ((fields w).op = 0x8 ∧ (fields w).n ∈ unmatchedNs.toFinset) ∨
      (fields w).op = 0xF ∧ (fields w).kk ∈ matchedKks.toFinsetᶜ := by
    simp [illegalWord_iff]
  have hdisj : Disjoint (Finset.univ.filter fun w : Word => (fields w).op = 0x8 ∧ (fields w).n ∈ unmatchedNs.toFinset)
      (Finset.univ.filter fun w : Word => (fields w).op = 0xF ∧ (fields w).kk ∈ matchedKks.toFinsetᶜ) :=
    Finset.disjoint_filter.2 fun w _ h8 hF => absurd (h8.1.symm.trans hF.1) (by decide)
  simp only [hset, Finset.filter_or]
  rw [Finset.card_union_of_disjoint hdisj, card_op_n, card_op_kk, Finset.card_compl, card_bitVec]
  rfl

/-! ## The statements -/

/-- Settles O8, by the constructors of the record; the words of `SYS` and `INVALID` are where well-formedness is needed. -/
theorem decodeOfEncode : Obligations.DecodeOfEncode := by
  intro i h
  refine ⟨decode_encode h, fun rest => ?_⟩
  rw [decodeBytes_encodeBytes, decode_encode h]

/-- Settles O6: the rows are compared with the dispatch family by family; a row's tag and format are those of the record
it builds. -/
theorem firstMatchTableIsTheDecoder : Obligations.FirstMatchTableIsTheDecoder := by
  refine ⟨by decide, fun w => ?_⟩
  obtain ⟨r, hfirst, hr, hfits, hbuild⟩ := exists_firstRow w
  have htag := Row.tag_build r hr w (fields w)
  have hformat := Row.format_build r hr w (fields w) (Row.op_eq_of_fits hr hfits).symm
  rw [hbuild] at htag hformat
  exact ⟨r, hfirst, hfits, hbuild, htag.symm, hformat.symm, tableDecode_eq_decode w⟩

/-- Settles O7: each case is one or two families, cut down by the values of one field. -/
theorem wordsPerCase : Obligations.WordsPerCase := by
  refine ⟨?_, ?_, ?_, ?_⟩
  · simp only [tag_decode_eq_2, card_op_nnn, Finset.card_compl, card_bitVec]; rfl
  · simp only [tag_decode_eq_25, card_op_kk, Finset.card_compl, card_bitVec]; rfl
  · simp only [tag_decode_eq_18, card_op_n]; rfl
  · simp only [tag_decode_eq_35, card_illegalWord]

/-- Settles O10. -/
theorem mnemonicsSpellSeveralCases : Obligations.MnemonicsSpellSeveralCases := ⟨rfl, rfl, rfl, rfl, rfl⟩

end Sys2Proof
end

section
/-! The grammar of the assembly text: the texts of 48_renderer.md R168 regrouped as a mnemonic, a space and the joined operands. -/

namespace Sys2Proof.Machine

theorem joinOperands_pair (o p : Operand) : joinOperands [o, p] = o.spell ++ (", ".toList ++ p.spell) :=
  List.append_assoc _ _ _

theorem joinOperands_triple (o p q : Operand) :
    joinOperands [o, p, q] = joinOperands [o, p] ++ (", ".toList ++ q.spell) := by
  simp only [joinOperands, List.append_assoc]

/-- A register and one operand more after a mnemonic, as R168 groups the characters and as R71 does. -/
theorem text_reg_operand (op : String) (x : Nibble) (o : Operand) :
    op.toList ++ " V".toList ++ hexU x.toNat 1 ++ (", ".toList ++ o.spell) =
      op.toList ++ [' '] ++ joinOperands [.reg x, o] := by
  rw [joinOperands_pair, List.append_assoc, List.append_assoc, List.append_assoc]
  rfl

theorem textVxVy_eq (op : String) (x y : Nibble) :
    textVxVy op x y = op.toList ++ [' '] ++ joinOperands [.reg x, .reg y] :=
  (List.append_assoc _ _ _).trans (text_reg_operand op x (.reg y))

theorem textVxKk_eq (op : String) (x : Nibble) (kk : Byte) :
    textVxKk op x kk = op.toList ++ [' '] ++ joinOperands [.reg x, .immKk kk] :=
  (List.append_assoc _ _ _).trans (text_reg_operand op x (.immKk kk))

theorem text_drw (x y n : Nibble) :
    text (.drw x y n) = "DRW".toList ++ [' '] ++ joinOperands [.reg x, .reg y, .immN n] := by
  rw [joinOperands_triple, ← List.append_assoc, ← textVxVy_eq]
  exact List.append_assoc _ _ _

/-- Settles O60: only where something stands after a register's digit do the two group the characters differently. -/
theorem grammarSpellsTheTable : Obligations.GrammarSpellsTheTable := by
  intro i
  cases i with
  | seVxKk x kk | sneVxKk x kk | ldVxKk x kk | addVxKk x kk | rndVxKk x kk => exact textVxKk_eq _ x kk
  | seVxVy x y | sneVxVy x y | ldVxVy x y | orVxVy x y | andVxVy x y | xorVxVy x y | addVxVy x y | subVxVy x y
  | subnVxVy x y => exact textVxVy_eq _ x y
  | drw x y n => exact text_drw x y n
  | ldVxDt x => exact text_reg_operand "LD" x .dt
  | ldVxK x => exact text_reg_operand "LD" x .k
  | ldVxMi x => exact text_reg_operand "LD" x .memI
  | cls | ret | sys _ | jp _ | call _ | shrVx _ | shlVx _ | skp _ | sknp _ | ldINnn _ | jpV0Nnn _ | ldDtVx _ | ldStVx _
  | addIVx _ | ldFVx _ | ldBVx _ | ldMiVx _ | invalid _ => rfl

end Sys2Proof.Machine
end

section
/-! FX as arithmetic (40_field_extractor.md): each field is a shift and a mask, and the word is the sum of its weighted
fields. -/

namespace Sys2Proof

open Laws

/-! ## Slices and appends as numbers -/

/-- A slice is a shift by its lowest bit and a mask of as many ones as it has bits. -/
theorem toNat_slice {v : Nat} (w : BitVec v) (s l : Nat) : (w.extractLsb' s l).toNat = (w.toNat >>> s) &&& (2 ^ l - 1) := by
  rw [BitVec.extractLsb'_toNat, Nat.and_two_pow_sub_one_eq_mod]

/-- A slice that reaches the top bit needs no mask (R81). -/
theorem toNat_top_slice {k l : Nat} (w : BitVec (l + k)) : (w.extractLsb' k l).toNat = w.toNat >>> k := by
  have hlt : w.toNat >>> k < 2 ^ l := by
    rw [Nat.shiftRight_eq_div_pow, Nat.div_lt_iff_lt_mul (Nat.two_pow_pos k), ← Nat.pow_add]
    exact w.isLt
  rw [BitVec.extractLsb'_toNat, Nat.mod_eq_of_lt hlt]

/-- An append is the high part weighted by the width of the low part, and the low part. -/
theorem toNat_append_eq_add {l k : Nat} (a : BitVec l) (b : BitVec k) : (a ++ b).toNat = 2 ^ k * a.toNat + b.toNat := by
  rw [BitVec.toNat_append, ← Nat.shiftLeft_add_eq_or_of_lt b.isLt, Nat.shiftLeft_eq, Nat.mul_comm]

/-! ## The equations of R87 -/

section
variable (w : Word)

theorem toNat_eq_op_nnn : w.toNat = 4096 * (fields w).op.toNat + (fields w).nnn.toNat :=
  (congrArg BitVec.toNat (word_eq_op_nnn w)).trans (toNat_append_eq_add (fields w).op (fields w).nnn)

theorem toNat_nnn_eq_x_kk : (fields w).nnn.toNat = 256 * (fields w).x.toNat + (fields w).kk.toNat :=
  (congrArg BitVec.toNat (nnn_eq_x_kk w)).trans (toNat_append_eq_add (fields w).x (fields w).kk)

theorem toNat_kk_eq_y_n : (fields w).kk.toNat = 16 * (fields w).y.toNat + (fields w).n.toNat :=
  (congrArg BitVec.toNat (kk_eq_y_n w)).trans (toNat_append_eq_add (fields w).y (fields w).n)

theorem toNat_eq_op_x_y_n :
    w.toNat = 4096 * (fields w).op.toNat + 256 * (fields w).x.toNat + 16 * (fields w).y.toNat + (fields w).n.toNat := by
  rw [toNat_eq_op_nnn, toNat_nnn_eq_x_kk, toNat_kk_eq_y_n, ← Nat.add_assoc, ← Nat.add_assoc]

end

/-- The four nibbles determine the word, and any four nibbles are those of their append. -/
theorem nibbles_bijective : Function.Bijective fun w : Word => ((fields w).op, (fields w).x, (fields w).y, (fields w).n) := by
  constructor
  · intro w v h
    simpa only [word_eq_iff_op_x_y_n, Prod.mk.injEq] using h
  · rintro ⟨op, x, y, n⟩
    exact ⟨op ++ x ++ y ++ n, by simp only [op_xyn, x_xyn, y_xyn, n_xyn]⟩

/-! ## The statements -/

/-- Settles O2: every field is a slice of the word, and `op` is the one that reaches the top bit. -/
theorem fieldsAreShiftsAndMasks : Obligations.FieldsAreShiftsAndMasks := by
  refine ⟨fun w => ⟨?op, ?x, ?y, ?kk, ?nnn, ?n⟩, by decide⟩
  case op => exact toNat_top_slice (l := 4) (k := 12) w
  case x => exact toNat_slice w 8 4
  case y => exact toNat_slice w 4 4
  case kk => exact toNat_slice w 0 8
  case nnn => exact toNat_slice w 0 12
  case n => exact toNat_slice w 0 4

/-- Settles O3: the equations are the numbers of the appends that make up the word. -/
theorem fieldsDetermineTheWord : Obligations.FieldsDetermineTheWord :=
  ⟨fun w => ⟨toNat_eq_op_nnn w, toNat_nnn_eq_x_kk w, toNat_kk_eq_y_n w, toNat_eq_op_x_y_n w⟩, nibbles_bijective⟩

end Sys2Proof
end

section
/-! DEC as a whole (41_dispatch.md): every word has a well-formed record, `INVALID` is the record of exactly the illegal words, and
the record determines the word in all but five cases. -/

namespace Sys2Proof.Machine

/-- Every record emits its text, as the rules of 42_family_0.md to 47_family_F.md say of each. -/
theorem emits_text (i : Instr) : Emits i (text i) := fun _ hdomain => exec_eq_next.2 ⟨hdomain, rfl⟩

/-- The error class UnrecognizedOpcode is the record `INVALID` (60_exceptions.md R213). -/
theorem recordClass_eq_unrecognizedOpcode (i : Instr) : recordClass i = some .unrecognizedOpcode ↔ i.tag = 35 := by
  cases i with
  | invalid w => exact iff_of_true rfl rfl
  | _ => exact iff_of_false nofun nofun

end Sys2Proof.Machine

namespace Sys2Proof

open Laws Machine

/-! ## The record of a word -/

section
variable {w : Word}

/-- A `SYS` record carries the `nnn` of a word of family 0 that is not one of its two exact words (42_family_0.md R102). -/
theorem nnn_of_decode_eq_sys {nnn : Addr} (h : decode w = .sys nnn) : nnn ≠ 0x0E0#12 ∧ nnn ≠ 0x0EE#12 := by
  obtain ⟨hop, -⟩ := (tag_decode_eq_2 w).1 (by rw [h, Instr.tag])
  rw [decode_family0 hop, family0] at h
  split_ifs at h with hcls hret
  obtain rfl := Instr.sys.inj h
  simpa [word_eq_iff_op_nnn, hop] using And.intro hcls hret

/-- The record of an illegal word carries the word itself (41_dispatch.md R94). -/
theorem decode_eq_invalid_iff {v : Word} : decode w = .invalid v ↔ v = w ∧ illegalWord w := by
  constructor
  · intro h
    have hw : illegalWord w := (tag_decode_eq_35 w).1 (by rw [h, Instr.tag])
    exact ⟨Instr.invalid.inj (h.symm.trans (decode_of_illegalWord hw)), hw⟩
  · rintro ⟨rfl, hw⟩
    exact decode_of_illegalWord hw

/-- Only `SYS` and `INVALID` have records that are not well-formed. -/
theorem wellFormed_decode (w : Word) : (decode w).wellFormed := by
  cases h : decode w with
  | sys nnn => simpa [Instr.wellFormed] using nnn_of_decode_eq_sys h
  | invalid v =>
    obtain ⟨rfl, hw⟩ := decode_eq_invalid_iff.1 h
    exact hw
  | _ => rfl

end

theorem Instr.tag_le (i : Instr) : i.tag ≤ 35 := by
  cases i <;> simp [Instr.tag]

/-! ## The illegal words as numbers -/

/-- A list of vectors and the list of their numbers have the same members. -/
theorem mem_iff_toNat_mem {k : Nat} {v : BitVec k} {l : List (BitVec k)} : v ∈ l ↔ v.toNat ∈ l.map BitVec.toNat :=
  (List.mem_map_of_injective BitVec.toNat_injective).symm

section
variable (w : Word)

theorem op_eq_iff_toNat (a : Nibble) : (fields w).op = a ↔ w.toNat / 4096 = a.toNat := by
  rw [← BitVec.toNat_inj, show (fields w).op.toNat = w.toNat >>> 12 from toNat_top_slice (l := 4) (k := 12) w,
    Nat.shiftRight_eq_div_pow]

theorem n_toNat : (fields w).n.toNat = w.toNat % 16 := BitVec.extractLsb'_toNat ..

theorem kk_toNat : (fields w).kk.toNat = w.toNat % 256 := BitVec.extractLsb'_toNat ..

/-- The two groups of illegal words as R94 lists them. -/
theorem illegalWord_iff_toNat :
    illegalWord w ↔
      (w.toNat / 4096 = 8 ∧ w.toNat % 16 ∈ [0x8, 0x9, 0xA, 0xB, 0xC, 0xD, 0xF]) ∨
      (w.toNat / 4096 = 0xF ∧ w.toNat % 256 ∉ [0x07, 0x0A, 0x15, 0x18, 0x1E, 0x29, 0x33, 0x55, 0x65]) := by
  rw [illegalWord_iff, op_eq_iff_toNat, op_eq_iff_toNat, mem_iff_toNat_mem, mem_iff_toNat_mem, n_toNat, kk_toNat]
  rfl

end

/-! ## The words DEC maps together (41_dispatch.md R96) -/

section
variable (x y n : Nibble)

theorem decode_shr_word : decode (0x8#4 ++ x ++ y ++ 0x6#4) = .shrVx x := by simp [decode_family8, family8]

theorem decode_shl_word : decode (0x8#4 ++ x ++ y ++ 0xE#4) = .shlVx x := by simp [decode_family8, family8]

theorem decode_seVxVy_word : decode (0x5#4 ++ x ++ y ++ n) = .seVxVy x y := by simp [decode]

theorem decode_sneVxVy_word : decode (0x9#4 ++ x ++ y ++ n) = .sneVxVy x y := by simp [decode]

theorem decode_sknp_word {kk : Byte} (h : kk ≠ 0x9E) : decode (0xE#4 ++ x ++ kk) = .sknp x := by
  rw [decode_familyE (op_xkk 0xE#4 x kk), x_xkk, kk_xkk]
  exact if_neg h

end

/-! ## The encoder gives back every word that lost no bit -/

section
variable {w : Word}

theorem encode_family0 (h : (fields w).op = 0x0) : encode (family0 w (fields w).nnn) = w := by
  unfold family0
  split_ifs <;> simp [encode, word_eq_iff_op_nnn, *]

theorem encode_family8 (h : (fields w).op = 0x8)
    (htag : (family8 w (fields w).x (fields w).y (fields w).n).tag ∉ [7, 16, 18, 19, 25]) :
    encode (family8 w (fields w).x (fields w).y (fields w).n) = w := by
  unfold family8 at htag ⊢
  split <;> simp_all [encode, Instr.tag, word_eq_iff_op_x_y_n]

theorem encode_familyE (h : (fields w).op = 0xE)
    (htag : (familyE (fields w).x (fields w).kk).tag ∉ [7, 16, 18, 19, 25]) :
    encode (familyE (fields w).x (fields w).kk) = w := by
  unfold familyE at htag ⊢
  split_ifs <;> simp_all [encode, Instr.tag, word_eq_iff_op_x_kk]

theorem encode_familyF (h : (fields w).op = 0xF) : encode (familyF w (fields w).x (fields w).kk) = w := by
  unfold familyF
  split <;> simp_all [encode, word_eq_iff_op_x_kk]

/-- Family by family: a record that keeps all its bits has the fields that make up the word. -/
theorem encode_decode : (decode w).tag ∉ [7, 16, 18, 19, 25] → encode (decode w) = w := by
  unfold decode
  dsimp only
  split
  case h_1 h => exact fun _ => encode_family0 h
  case h_9 h => exact encode_family8 h
  case h_15 h => exact encode_familyE h
  case h_16 h => exact fun _ => encode_familyF h
  -- the records without `n`
  case h_6 | h_10 => simp [Instr.tag]
  case h_2 h | h_3 h | h_11 h | h_12 h => simp [encode, word_eq_iff_op_nnn, h]
  case h_4 h | h_5 h | h_7 h | h_8 h | h_13 h => simp [encode, word_eq_iff_op_x_kk, h]
  case h_14 h => simp [encode, word_eq_iff_op_x_y_n, h]
  case h_17 => exact fun _ => rfl

end

/-! ## The statements -/

/-- Settles O5: the arms that can give `SYS` or `INVALID` are those of family 0 and of the illegal words. -/
theorem everyWordDecodesWellFormed : Obligations.EveryWordDecodesWellFormed := by
  intro w
  refine ⟨wellFormed_decode w, (decode w).tag_le, fun htag => ?_⟩
  exact (illegalWord_iff.1 ((tag_decode_eq_35 w).1 htag)).imp And.left And.left

/-- Settles O9: where no bit is dropped the encoder inverts DEC, so two words with one record are equal. -/
theorem onlyFiveCasesDropBits : Obligations.OnlyFiveCasesDropBits := by
  refine ⟨fun w w' h => ?_, fun w => encode_decode, fun x y y' n n' => ?_, fun x k k' hk hk' => ?_, rfl, rfl⟩
  · refine or_iff_not_imp_right.2 fun htag => ?_
    calc w = encode (decode w) := (encode_decode htag).symm
      _ = encode (decode w') := congrArg encode h
      _ = w' := encode_decode (h ▸ htag)
  · simp only [decode_shr_word, decode_shl_word, decode_seVxVy_word, decode_sneVxVy_word, and_self]
  · rw [decode_sknp_word x hk, decode_sknp_word x hk']

/-- Settles O17: the words with tag 35 are the illegal ones, whose numbers are those R94 lists. -/
theorem invalidRules : Obligations.InvalidRules := by
  refine ⟨fun w v => ?_, fun w => ⟨rfl, rfl, ?_⟩, recordClass_eq_unrecognizedOpcode, by decide⟩
  · rw [decode_eq_invalid_iff, illegalWord_iff_toNat]
  · exact emits_text (.invalid w)

/-- Settles O1, by evaluating DEC on the nine words. -/
theorem printedWordsDecode : Obligations.PrintedWordsDecode := by
  unfold Obligations.PrintedWordsDecode
  decide

end Sys2Proof
end

section
/-! The instruction rules: which words give a record that keeps all its bits, and what every record does; and the statement
about 42_family_0.md. -/

namespace Sys2Proof

open Laws Machine

/-- The template of the instruction rules, as every record meets it: its own tag, format and text, and the entry a step appends. -/
theorem ruleOf_text (i : Instr) : RuleOf i i.tag i.format (text i) := ⟨rfl, rfl, rfl, emits_text i⟩

/-- A record outside the five cases of R96 has one word only, the encoder's (41_dispatch.md R96). -/
theorem decode_eq_iff_eq_encode {w : Word} {i : Instr} (hi : i.wellFormed) (htag : i.tag ∉ [7, 16, 18, 19, 25]) :
    decode w = i ↔ w = encode i := by
  constructor
  · rintro rfl
    exact (encode_decode htag).symm
  · rintro rfl
    exact decode_encode hi

/-- `CLS` is the record of one word of family 0 (42_family_0.md R100). -/
theorem decode_eq_cls_iff {w : Word} : decode w = .cls ↔ w = 0x00E0#16 := decode_eq_iff_eq_encode rfl (by decide)

/-- `RET` is the record of one word of family 0 (42_family_0.md R101). -/
theorem decode_eq_ret_iff {w : Word} : decode w = .ret ↔ w = 0x00EE#16 := decode_eq_iff_eq_encode rfl (by decide)

/-- The rest of family 0 is `SYS` (42_family_0.md R102). -/
theorem decode_eq_sys_iff {w : Word} {nnn : Addr} :
    decode w = .sys nnn ↔ w = 0x0#4 ++ nnn ∧ w ≠ 0x00E0#16 ∧ w ≠ 0x00EE#16 := by
  constructor
  · intro h
    have hw : encode (decode w) = w := encode_decode (by simp [h, Instr.tag])
    rw [h] at hw
    refine ⟨hw.symm, fun hcls => ?_, fun hret => ?_⟩
    · nomatch h.symm.trans (decode_eq_cls_iff.2 hcls)
    · nomatch h.symm.trans (decode_eq_ret_iff.2 hret)
  · rintro ⟨rfl, hcls, hret⟩
    rw [decode_family0 (op_nnn 0x0#4 nnn), family0, if_neg hcls, if_neg hret, nnn_nnn]

/-- Settles O11: `CLS` and `RET` are each the record of one word, which leaves the rest of family 0 to `SYS`; the texts are the
rows of `text`, and DEC and `text` are evaluated on the corner cases. -/
theorem family0Rules : Obligations.Family0Rules :=
  ⟨fun _ => decode_eq_cls_iff, fun _ => decode_eq_ret_iff, fun _ _ => decode_eq_sys_iff, ruleOf_text .cls, ruleOf_text .ret,
    fun nnn => ruleOf_text (.sys nnn), by decide⟩

end Sys2Proof
end

section
/-! The instruction rules of 43_families_1_to_7.md: `SE Vx, Vy` is the one record here that drops bits, so its words are found
through the primary nibble. -/

namespace Sys2Proof

open Laws Machine

/-- A word's primary nibble is that of the only family with its record's tag (30_encoding.md R66). -/
theorem op_eq_of_tag_decode {w : Word} {t : Nat} {a : Nibble} (family : ∀ b, t ∈ (familyRows b).map (·.tag) → b = a)
    (h : (decode w).tag = t) : (fields w).op = a :=
  family _ (h ▸ tag_decode_mem w)

theorem word_eq_of_op_eq {w : Word} {a : Nibble} (h : (fields w).op = a) :
    w = a ++ (fields w).x ++ (fields w).y ++ (fields w).n := by
  subst h
  exact word_eq_op_x_y_n w

/-- Family 5 is `SE Vx, Vy`, whatever `n` is (43_families_1_to_7.md R114, D5). -/
theorem decode_eq_seVxVy_iff {w : Word} {x y : Nibble} :
    decode w = .seVxVy x y ↔ ∃ n : Nibble, w = 0x5#4 ++ x ++ y ++ n := by
  constructor
  · intro h
    have hop : (fields w).op = 0x5#4 := op_eq_of_tag_decode (t := 7) (by decide) (congrArg Instr.tag h)
    have hw := word_eq_of_op_eq hop
    rw [hw, decode_seVxVy_word] at h
    obtain ⟨rfl, rfl⟩ := Instr.seVxVy.inj h
    exact ⟨_, hw⟩
  · rintro ⟨n, rfl⟩
    exact decode_seVxVy_word x y n

/-- Settles O12: six of the seven records keep all their bits, so the encoder's word is their only one, and the seventh is family 5;
the texts are the rows of `text`. -/
theorem families1To7Rules : Obligations.Families1To7Rules := by
  refine ⟨fun _ _ => decode_eq_iff_eq_encode rfl ?_, fun _ _ => decode_eq_iff_eq_encode rfl ?_,
    fun _ _ _ => decode_eq_iff_eq_encode rfl ?_, fun _ _ _ => decode_eq_iff_eq_encode rfl ?_,
    fun _ _ _ => decode_eq_seVxVy_iff,
    fun _ _ _ => decode_eq_iff_eq_encode rfl ?_, fun _ _ _ => decode_eq_iff_eq_encode rfl ?_,
    fun nnn => ruleOf_text (.jp nnn), fun nnn => ruleOf_text (.call nnn),
    fun x kk => ruleOf_text (.seVxKk x kk), fun x kk => ruleOf_text (.sneVxKk x kk), fun x y => ruleOf_text (.seVxVy x y),
    fun x kk => ruleOf_text (.ldVxKk x kk), fun x kk => ruleOf_text (.addVxKk x kk)⟩
  -- none of the six tags is one of the five cases of R96
  all_goals simp [Instr.tag]

end Sys2Proof
end

section
/-! The instruction rules of 44_family_8.md: `SHR` and `SHL` are the records here that drop bits, so their words are found through
the primary nibble and `n`. -/

namespace Sys2Proof

open Laws Machine

theorem family8_tag_eq_16 (w : Word) (x y n : Nibble) : (family8 w x y n).tag = 16 ↔ n = 0x6 := by
  unfold family8
  split <;> simp_all [Instr.tag]

theorem tag_decode_eq_16 (w : Word) : (decode w).tag = 16 ↔ (fields w).op = 0x8 ∧ (fields w).n = 0x6 :=
  tag_decode_eq_iff (by decide) fun h => by rw [decode_family8 h, family8_tag_eq_16]

/-- A form of family 8 that keeps `x` alone has a word for every `y` (41_dispatch.md R96, D13). -/
theorem decode_eq_iff_exists_y {w : Word} {x n : Nibble} {form : Nibble → Instr} (hform : Function.Injective form)
    (hword : ∀ x y : Nibble, decode (0x8#4 ++ x ++ y ++ n) = form x)
    (hselect : decode w = form x → (fields w).op = 0x8 ∧ (fields w).n = n) :
    decode w = form x ↔ ∃ y : Nibble, w = 0x8#4 ++ x ++ y ++ n := by
  constructor
  · intro h
    obtain ⟨hop, rfl⟩ := hselect h
    have hw : w = 0x8#4 ++ (fields w).x ++ (fields w).y ++ (fields w).n := word_eq_of_op_eq hop
    have hx : (fields w).x = x := hform (by rw [← hword _ (fields w).y, ← hw, h])
    exact ⟨(fields w).y, hx ▸ hw⟩
  · rintro ⟨y, rfl⟩
    exact hword x y

/-- `n = 6` selects `SHR Vx`, whatever `y` is (44_family_8.md R127). -/
theorem decode_eq_shrVx_iff {w : Word} {x : Nibble} :
    decode w = .shrVx x ↔ ∃ y : Nibble, w = 0x8#4 ++ x ++ y ++ 0x6#4 :=
  decode_eq_iff_exists_y (fun _ _ => Instr.shrVx.inj) decode_shr_word fun h => (tag_decode_eq_16 w).1 (congrArg Instr.tag h)

/-- `n = 0xE` selects `SHL Vx`, whatever `y` is (44_family_8.md R129). -/
theorem decode_eq_shlVx_iff {w : Word} {x : Nibble} :
    decode w = .shlVx x ↔ ∃ y : Nibble, w = 0x8#4 ++ x ++ y ++ 0xE#4 :=
  decode_eq_iff_exists_y (fun _ _ => Instr.shlVx.inj) decode_shl_word fun h => by
    simpa using (tag_decode_eq_18 w).1 (congrArg Instr.tag h)

/-- Settles O13: seven of the nine records keep all their bits, so the encoder's word is their only one, and the two shifts have a
word for every `y`; the texts are the rows of `text`. -/
theorem family8Rules : Obligations.Family8Rules := by
  refine ⟨fun _ _ _ => decode_eq_iff_eq_encode rfl ?_, fun _ _ _ => decode_eq_iff_eq_encode rfl ?_,
    fun _ _ _ => decode_eq_iff_eq_encode rfl ?_, fun _ _ _ => decode_eq_iff_eq_encode rfl ?_,
    fun _ _ _ => decode_eq_iff_eq_encode rfl ?_, fun _ _ _ => decode_eq_iff_eq_encode rfl ?_,
    fun _ _ => decode_eq_shrVx_iff, fun _ _ _ => decode_eq_iff_eq_encode rfl ?_, fun _ _ => decode_eq_shlVx_iff,
    fun x y => ruleOf_text (.ldVxVy x y), fun x y => ruleOf_text (.orVxVy x y), fun x y => ruleOf_text (.andVxVy x y),
    fun x y => ruleOf_text (.xorVxVy x y), fun x y => ruleOf_text (.addVxVy x y), fun x y => ruleOf_text (.subVxVy x y),
    fun x => ruleOf_text (.shrVx x), fun x y => ruleOf_text (.subnVxVy x y), fun x => ruleOf_text (.shlVx x)⟩
  -- none of the seven tags is one of the five cases of R96
  all_goals simp [Instr.tag]

end Sys2Proof
end

section
/-! The instruction rules of 45_families_9_to_D.md: `SNE Vx, Vy` is the one record here that drops bits. -/

namespace Sys2Proof

open Laws Machine

/-- The form of a family that ignores `n` has a word for every `n` (41_dispatch.md R96, D5). -/
theorem decode_eq_iff_exists_n {w : Word} {a x y : Nibble} {form : Nibble → Nibble → Instr} (hform : Function.Injective2 form)
    (hword : ∀ x y n : Nibble, decode (a ++ x ++ y ++ n) = form x y) (hselect : decode w = form x y → (fields w).op = a) :
    decode w = form x y ↔ ∃ n : Nibble, w = a ++ x ++ y ++ n := by
  constructor
  · intro h
    have hw := word_eq_of_op_eq (hselect h)
    rw [hw, hword] at h
    obtain ⟨rfl, rfl⟩ := hform h
    exact ⟨_, hw⟩
  · rintro ⟨n, rfl⟩
    exact hword x y n

/-- Family 9 is `SNE Vx, Vy`, whatever `n` is (45_families_9_to_D.md R135, D5). -/
theorem decode_eq_sneVxVy_iff {w : Word} {x y : Nibble} :
    decode w = .sneVxVy x y ↔ ∃ n : Nibble, w = 0x9#4 ++ x ++ y ++ n :=
  decode_eq_iff_exists_n (fun _ _ _ _ => Instr.sneVxVy.inj) decode_sneVxVy_word fun h =>
    op_eq_of_tag_decode (t := 19) (by decide) (congrArg Instr.tag h)

/-- Settles O14: four of the five records keep all their bits, so the encoder's word is their only one, and `SNE` has a word for
every `n`; the texts are the rows of `text`. -/
theorem families9ToDRules : Obligations.Families9ToDRules := by
  refine ⟨fun _ _ _ => decode_eq_sneVxVy_iff, fun _ _ => decode_eq_iff_eq_encode rfl ?_,
    fun _ _ => decode_eq_iff_eq_encode rfl ?_, fun _ _ _ => decode_eq_iff_eq_encode rfl ?_,
    fun _ _ _ _ => decode_eq_iff_eq_encode rfl ?_,
    fun x y => ruleOf_text (.sneVxVy x y), fun nnn => ruleOf_text (.ldINnn nnn), fun nnn => ruleOf_text (.jpV0Nnn nnn),
    fun x kk => ruleOf_text (.rndVxKk x kk), fun x y n => ruleOf_text (.drw x y n)⟩
  -- none of the four tags is one of the five cases of R96
  all_goals simp [Instr.tag]

end Sys2Proof
end

section
/-! The instruction rules of 46_family_E.md: `SKNP Vx` is the one record here that drops bits, and its `kk` is any but that of
`SKP Vx`. -/

namespace Sys2Proof

open Laws Machine

/-- Every `kk` but `0x9E` selects `SKNP Vx`, whose record does not keep it (46_family_E.md R145, R146, D13). -/
theorem decode_eq_sknp_iff {w : Word} {x : Nibble} :
    decode w = .sknp x ↔ ∃ kk : Byte, kk ≠ 0x9E ∧ w = 0xE#4 ++ x ++ kk := by
  constructor
  · intro h
    obtain ⟨hop, hkk⟩ : (fields w).op = 0xE#4 ∧ (fields w).kk ≠ 0x9E := by
      simpa using (tag_decode_eq_25 w).1 (congrArg Instr.tag h)
    have hw : w = 0xE#4 ++ (fields w).x ++ (fields w).kk := hop ▸ word_eq_op_x_kk w
    rw [hw, decode_sknp_word _ hkk] at h
    obtain rfl := Instr.sknp.inj h
    exact ⟨_, hkk, hw⟩
  · rintro ⟨kk, hkk, rfl⟩
    exact decode_sknp_word x hkk

/-- Settles O15: `SKP` keeps all its bits, so the encoder's word is its only one, and `SKNP` has a word for every other `kk`; the
texts are the rows of `text`, and DEC is evaluated on the near misses of R145. -/
theorem familyERules : Obligations.FamilyERules :=
  -- the tag of `SKP` is none of the five cases of R96
  ⟨fun _ x => decode_eq_iff_eq_encode (i := .skp x) rfl (by simp [Instr.tag]), fun _ _ => decode_eq_sknp_iff,
    fun x => ruleOf_text (.skp x), fun x => ruleOf_text (.sknp x), by decide⟩

end Sys2Proof
end

section
/-! The instruction rules of 47_family_F.md: each record keeps `x`, and its `kk` is the form's own, so no bit is dropped. -/

namespace Sys2Proof

open Laws Machine

/-- Settles O16: the nine records keep all their bits, so the encoder's word is the only one of each; the texts are the rows of
`text`. -/
theorem familyFRules : Obligations.FamilyFRules := by
  refine ⟨fun _ _ => decode_eq_iff_eq_encode rfl ?_, fun _ _ => decode_eq_iff_eq_encode rfl ?_,
    fun _ _ => decode_eq_iff_eq_encode rfl ?_, fun _ _ => decode_eq_iff_eq_encode rfl ?_,
    fun _ _ => decode_eq_iff_eq_encode rfl ?_, fun _ _ => decode_eq_iff_eq_encode rfl ?_,
    fun _ _ => decode_eq_iff_eq_encode rfl ?_, fun _ _ => decode_eq_iff_eq_encode rfl ?_,
    fun _ _ => decode_eq_iff_eq_encode rfl ?_,
    fun x => ruleOf_text (.ldVxDt x), fun x => ruleOf_text (.ldVxK x), fun x => ruleOf_text (.ldDtVx x),
    fun x => ruleOf_text (.ldStVx x), fun x => ruleOf_text (.addIVx x), fun x => ruleOf_text (.ldFVx x),
    fun x => ruleOf_text (.ldBVx x), fun x => ruleOf_text (.ldMiVx x), fun x => ruleOf_text (.ldVxMi x)⟩
  -- none of the nine tags is one of the five cases of R96
  all_goals simp [Instr.tag]

end Sys2Proof
end

section
/-! A step and START, each with its exact conditions (49_stream_driver.md R191, R193), what a step does with an illegal word and
with the window the model's device places, and the statements about them. -/

namespace Sys2Proof.Machine

/-! ## The fetch and the step -/

/-- A window beyond LEN is no fetch (20_memory.md R41). -/
theorem fetch_of_len_lt {s : State} (h : s.len < s.idx + 2) : s.fetch = .error .readOutsideBuffer := by
  rw [State.fetch, memRead_of_len_lt h]

/-- A window inside LEN without one of its bytes is no fetch (70_reset_and_hazards.md R234). -/
theorem fetch_of_byte_missing {s : State} (hl : s.idx + 2 ≤ s.len)
    (h : s.ibuf.read s.idx = none ∨ s.ibuf.read (s.idx + 1) = none) : s.fetch = .error .byteNotPresent := by
  have hmany : s.ibuf.readMany s.idx 2 = none := by
    rw [Option.eq_none_iff_forall_ne_some]
    intro bs hbs
    obtain ⟨b0, bs, -, h0, hbs⟩ := Memory.readMany_succ.1 hbs
    obtain ⟨b1, bs, -, h1, -⟩ := Memory.readMany_succ.1 hbs
    simp [h0, h1] at h
  rw [State.fetch, State.memRead, if_pos hl, hmany]

theorem step_of_not_running {s : State} (h : s.phase ≠ .running) : step s = .refused .notRunning := if_neg h

section
variable {s : State} (hr : s.phase = .running)
include hr

theorem step_of_fetch_error {r : Refusal} (h : s.fetch = .error r) : step s = .refused r := by
  rw [step, if_pos hr, h]

/-- A step is the meaning of the record of the word fetched (49_stream_driver.md R193). -/
theorem step_of_fetch {w : Word} (h : s.fetch = .ok w) : step s = exec (decode w) s := by
  rw [step, if_pos hr, h]

variable {b0 b1 : Byte} (hl : s.idx + 2 ≤ s.len) (h0 : s.ibuf.read s.idx = some b0) (h1 : s.ibuf.read (s.idx + 1) = some b1)
include hl h0 h1

theorem step_eq_exec_of_window : step s = exec (decode (wordOf b0 b1)) s :=
  step_of_fetch hr (fetch_eq_ok.2 ⟨hl, b0, b1, h0, h1, rfl⟩)

theorem step_eq_afterWord_of_window (hd : LenAdmitted s.mode s.len) :
    step s = .next (afterWord s (decode (wordOf b0 b1)) (text (decode (wordOf b0 b1)))) :=
  step_eq_next.2 ⟨hr, hl, hd, b0, b1, h0, h1, rfl⟩

end

/-- A running pass always has a step (49_stream_driver.md R193): its window lies inside LEN, where every byte is present. -/
theorem PassInv.exists_step {s : State} (h : PassInv s) (hr : s.phase = .running) : ∃ t, step s = .next t := by
  have hw := h.window_left hr
  obtain ⟨b0, h0⟩ := Option.ne_none_iff_exists'.1 (h.present s.idx (by omega))
  obtain ⟨b1, h1⟩ := Option.ne_none_iff_exists'.1 (h.present (s.idx + 1) (by omega))
  exact ⟨_, step_eq_afterWord_of_window hr (by omega) h0 h1 h.domain⟩

/-! ## The model's device -/

/-- The table's number of a 16-bit word is the word. -/
theorem tableWord_16 (w : Nat) : tableWord 16 w = BitVec.ofNat 16 w :=
  BitVec.eq_of_toNat_eq (by simp [tableWord])

theorem decodeTableWord_eq (nbits w : Nat) : decodeTableWord nbits w = some (decode (tableWord nbits w)) := by
  simp [decodeTableWord, decodeBytes, Laws.wordOf_bytes]

/-- The step after `withWindow` emits the record of the word placed (log 4). -/
theorem step_withWindow {s : State} {w : Word} (hd : LenAdmitted s.mode (max s.len (s.idx + 2))) :
    step (s.withWindow w) = .next (afterWord (s.withWindow w) (decode w) (text (decode w))) := by
  refine step_eq_next.2 ⟨rfl, Nat.le_max_right .., hd, highByte w, lowByte w, ?_, ?_, by rw [Laws.wordOf_bytes]⟩
  · rw [withWindow_ibuf, withWindow_idx, Memory.read_write_of_ne _ _ (by omega), Memory.read_write_self]
  · rw [withWindow_ibuf, withWindow_idx, Memory.read_write_self]

/-! ## START -/

/-- START with its exact next state (10_state.md R33). -/
theorem started_eq (s : State) : s.started =
    { s with
      phase := if s.len / 2 = 0 then .done else .running
      idx := 0
      out := []
      diag := [.byteCount s.len] ++ (if s.len % 2 = 1 then [.malformedLength] else []) } := by
  rw [State.started, startDiag_eq, List.singleton_append]

theorem start_of_running {s : State} (h : s.phase = .running) : s.start = .refused .startWhileRunning := if_pos h

theorem start_of_byte_missing {s : State} {a : Nat} (hp : s.phase ≠ .running) (hd : LenAdmitted s.mode s.len)
    (ha : a < s.len) (hb : s.ibuf.read a = none) : s.start = .refused .byteNotPresent := by
  have hholds : s.ibuf.holds s.len = false :=
    Bool.eq_false_iff.2 fun h => Memory.holds_iff.1 h a ha hb
  simp [State.start, hp, (admitted_iff _ _).2 hd, hholds]

/-- A mode is read back from its two bits (10_state.md R25). -/
theorem modeOfBits_modeBits (mode : OffsetMode) : modeOfBits (modeBits mode) = some mode := by
  cases mode <;> rfl

/-! ## The statements -/

/-- Settles O18: `decodeBytes` reads the word the fetch makes of the two bytes. -/
theorem stepRunsTheDecodedInstruction : Obligations.StepRunsTheDecodedInstruction := by
  intro s b0 b1 rest i hr hl h0 h1 hi
  cases hi
  exact step_eq_exec_of_window hr hl h0 h1

/-- Settles O19: the next state is `afterWord`, and a reachable running state has the invariant of a pass. -/
theorem stepEffect : Obligations.StepEffect :=
  ⟨fun _ _ _ hr hd hl h0 h1 => step_eq_afterWord_of_window hr hl h0 h1 hd,
    fun _ hp _ ht => hp (step_eq_next.1 ht).1,
    fun _ hs hr => (hs.passInv hr).window_left hr⟩

/-- Settles O20: the phase and the fetch decide the three refusals; with the window present only the domain of LEN is left. -/
theorem stepOutcomes : Obligations.StepOutcomes := by
  intro s
  refine ⟨step_of_not_running, fun hr hl => step_of_fetch_error hr (fetch_of_len_lt hl),
    fun hr hl hb => step_of_fetch_error hr (fetch_of_byte_missing hl hb), fun hr hl h0 h1 => ?_⟩
  obtain ⟨b0, h0⟩ := Option.ne_none_iff_exists'.1 h0
  obtain ⟨b1, h1⟩ := Option.ne_none_iff_exists'.1 h1
  constructor
  · rintro ⟨t, ht⟩
    obtain ⟨-, -, hd, -⟩ := step_eq_next.1 ht
    exact hd
  · exact fun hd => ⟨_, step_eq_afterWord_of_window hr hl h0 h1 hd⟩

/-- Settles O22: an illegal word decodes to its `INVALID` record, which takes the step every record takes. -/
theorem illegalWordIsData : Obligations.IllegalWordIsData := by
  intro s b0 b1 hr hd hl h0 h1 hw
  have hstep := step_eq_afterWord_of_window hr hl h0 h1 hd
  rw [decode_of_illegalWord hw] at hstep
  refine ⟨_, hstep, rfl, rfl, fun hmore => ?_, rfl, rfl, rfl, rfl, rfl⟩
  rw [afterWord_phase, if_neg (Nat.ne_of_lt hmore)]

/-- Settles O23: the entry a step appends is written with `idx`, MODE and the two bytes only. -/
theorem recordDependsOnTheWindowOnly : Obligations.RecordDependsOnTheWindowOnly := by
  intro s s' t t' ht ht' hmode hidx hread0 hread1
  obtain ⟨-, -, -, b0, b1, h0, h1, rfl⟩ := step_eq_next.1 ht
  obtain ⟨-, -, -, c0, c1, k0, k1, rfl⟩ := step_eq_next.1 ht'
  obtain rfl : b0 = c0 := Option.some.inj (h0.symm.trans (hread0.trans (hidx ▸ k0)))
  obtain rfl : b1 = c1 := Option.some.inj (h1.symm.trans (hread1.trans (hidx ▸ k1)))
  simp [hmode, hidx]

/-- Settles O26: both bytes placed are read back, so the fetch and `decodeTableWord` read the same word. -/
theorem withFetchWordRunsTheWord : Obligations.WithFetchWordRunsTheWord := by
  intro s w _ hd
  rw [State.withFetchWord, decodeTableWord_eq, tableWord_16]
  exact ⟨_, step_withWindow hd, rfl, rfl, rfl⟩

/-- Settles O27. -/
theorem startEffect : Obligations.StartEffect :=
  ⟨fun s hp hd hb => start_eq_next.2 ⟨hp, hd, hb, (started_eq s).symm⟩, fun _ hr _ ht => (start_eq_next.1 ht).1 hr⟩

/-- Settles O28: START asks for the phase, the domain of LEN and the bytes in this order, and for nothing else. -/
theorem startOutcomes : Obligations.StartOutcomes := by
  intro s
  refine ⟨⟨?_, fun ⟨hp, hd, hb⟩ => ⟨_, start_eq_next.2 ⟨hp, hd, hb, rfl⟩⟩⟩, start_of_running,
    fun _ hp hd ha hb => start_of_byte_missing hp hd ha hb⟩
  rintro ⟨t, ht⟩
  obtain ⟨hp, hd, hb, -⟩ := start_eq_next.1 ht
  exact ⟨hp, hd, hb⟩

/-- Settles O31: every move of the host asks for a phase other than Running, and then writes its one field. -/
theorem hostMovesOnlyOutsideRunning : Obligations.HostMovesOnlyOutsideRunning := by
  refine ⟨fun s m t hr ht => (hostMove_eq_next ht).1 hr, fun s bytes n mode hp => ⟨if_neg hp, if_neg hp, ?_⟩⟩
  rw [hostMove, modeOfBits_modeBits]
  exact if_neg hp

/-- Settles O34: the two classes, their codes and their reporters are the rows of the tables of 60_exceptions.md. -/
theorem errorClasses : Obligations.ErrorClasses := ⟨rfl, rfl, rfl, fun _ => rfl, fun _ => rfl⟩

/-- Settles O40. -/
theorem startEstablishesPassInv : Obligations.StartEstablishesPassInv := by
  intro s t hm ht
  obtain ⟨-, hd, hb, rfl⟩ := start_eq_next.1 ht
  exact passInv_started hm hd hb

/-- Settles O41: the invariant gives the step, and the step keeps the invariant. -/
theorem runningPassAlwaysSteps : Obligations.RunningPassAlwaysSteps := by
  intro s h hr
  obtain ⟨t, ht⟩ := h.exists_step hr
  exact ⟨t, ht, step_keeps_passInv h ht⟩

end Sys2Proof.Machine
end

section
/-! Numerals (48_renderer.md R166): the recursion of `hexDigits` without its bound, and the digits, value and length of `hexU`. -/

namespace Sys2Proof.Machine

/-! ## One digit -/

theorem digitValue_hexDigit : ∀ d < 16, digitValue (hexDigit d) = d := by decide

theorem hexDigit_mem (d : Nat) : hexDigit d ∈ "0123456789ABCDEF".toList := by
  unfold hexDigit
  split <;> decide

/-! ## The shortest numeral -/

/-- Any bound above `v` gives the same digits (41_dispatch.md R97 (g)). -/
theorem hexDigitsUpTo_eq_of_lt {v m n : Nat} (hm : v < m) (hn : v < n) : hexDigitsUpTo m v = hexDigitsUpTo n v := by
  induction m generalizing v n with
  | zero => omega
  | succ m ih =>
    cases n with
    | zero => omega
    | succ n =>
      rw [hexDigitsUpTo, hexDigitsUpTo]
      split
      · rfl
      · rw [ih (n := n) (by omega) (by omega)]

theorem hexDigits_of_lt {v : Nat} (h : v < 16) : hexDigits v = [hexDigit v] := by
  rw [hexDigits, hexDigitsUpTo, if_pos h]

theorem hexDigits_of_le {v : Nat} (h : 16 ≤ v) : hexDigits v = hexDigits (v / 16) ++ [hexDigit (v % 16)] := by
  rw [hexDigits, hexDigitsUpTo, if_neg (Nat.not_lt.2 h), hexDigits,
    hexDigitsUpTo_eq_of_lt (n := v / 16 + 1) (by omega) (Nat.lt_succ_self _)]

/-- A property of all shortest numerals: of the one-digit ones, and of a numeral with one digit more. -/
theorem hexDigits_induction {P : Nat → Text → Prop} (digit : ∀ v, v < 16 → P v [hexDigit v])
    (more : ∀ v, 16 ≤ v → P (v / 16) (hexDigits (v / 16)) → P v (hexDigits (v / 16) ++ [hexDigit (v % 16)])) (v : Nat) :
    P v (hexDigits v) := by
  induction v using Nat.strong_induction_on with
  | _ v ih =>
    rcases Nat.lt_or_ge v 16 with h | h
    · rw [hexDigits_of_lt h]
      exact digit v h
    · rw [hexDigits_of_le h]
      exact more v h (ih (v / 16) (by omega))

theorem hexDigits_subset (v : Nat) : hexDigits v ⊆ "0123456789ABCDEF".toList := by
  induction v using hexDigits_induction with
  | digit v _ => exact List.cons_subset.2 ⟨hexDigit_mem v, List.nil_subset _⟩
  | more v _ ih => exact List.append_subset.2 ⟨ih, List.cons_subset.2 ⟨hexDigit_mem _, List.nil_subset _⟩⟩

theorem length_hexDigits (v : Nat) : (hexDigits v).length = Nat.log 16 v + 1 := by
  induction v using hexDigits_induction with
  | digit v h => rw [Nat.log_of_lt h, List.length_singleton]
  | more v h ih => rw [List.length_append, ih, List.length_singleton, Nat.log_of_one_lt_of_le (by decide) h]

theorem numeralValue_append_digit (t : Text) (c : Char) : numeralValue (t ++ [c]) = 16 * numeralValue t + digitValue c :=
  List.foldl_concat ..

theorem numeralValue_hexDigits (v : Nat) : numeralValue (hexDigits v) = v := by
  induction v using hexDigits_induction with
  | digit v h => exact (Nat.zero_add _).trans (digitValue_hexDigit v h)
  | more v _ ih =>
    rw [numeralValue_append_digit, ih, digitValue_hexDigit _ (Nat.mod_lt _ (by decide)), Nat.div_add_mod]

/-! ## The padded numeral -/

theorem hexU_subset (v w : Nat) : hexU v w ⊆ "0123456789ABCDEF".toList :=
  List.append_subset.2 ⟨fun _ hc => List.eq_of_mem_replicate hc ▸ by decide, hexDigits_subset v⟩

/-- Leading zeros do not change the value. -/
theorem numeralValue_zeros_append (n : Nat) (t : Text) : numeralValue (List.replicate n '0' ++ t) = numeralValue t := by
  induction n with
  | zero => rfl
  | succ n ih => exact ih

theorem numeralValue_hexU (v w : Nat) : numeralValue (hexU v w) = v := by
  rw [hexU, numeralValue_zeros_append, numeralValue_hexDigits]

theorem length_hexU (v w : Nat) : (hexU v w).length = max w (Nat.log 16 v + 1) := by
  rw [hexU, List.length_append, List.length_replicate, length_hexDigits]
  omega

/-- A value that fits its width takes exactly that width. -/
theorem length_hexU_of_lt {v w : Nat} (hw : w ≠ 0) (h : v < 16 ^ w) : (hexU v w).length = w := by
  rw [length_hexU, Nat.max_eq_left (Nat.log_lt_of_lt_pow' hw h)]

/-- No other number has the same numeral. -/
theorem hexU_toNat_inj {k w : Nat} {a b : BitVec k} : hexU a.toNat w = hexU b.toNat w ↔ a = b := by
  refine ⟨fun h => BitVec.eq_of_toNat_eq ?_, fun h => h ▸ rfl⟩
  rw [← numeralValue_hexU a.toNat w, h, numeralValue_hexU]

@[simp] theorem length_hexU_nibble (x : Nibble) : (hexU x.toNat 1).length = 1 := length_hexU_of_lt (by decide) x.isLt
@[simp] theorem length_hexU_byte (kk : Byte) : (hexU kk.toNat 2).length = 2 := length_hexU_of_lt (by decide) kk.isLt
@[simp] theorem length_hexU_addr (nnn : Addr) : (hexU nnn.toNat 3).length = 3 := length_hexU_of_lt (by decide) nnn.isLt
@[simp] theorem length_hexU_word (w : Word) : (hexU w.toNat 4).length = 4 := length_hexU_of_lt (by decide) w.isLt

/-! ## The statements -/

/-- Settles O51: by recursion on the digits, before which only zeros are put. -/
theorem hexNumerals : Obligations.HexNumerals :=
  ⟨fun v w => ⟨fun _ hc => hexU_subset v w hc, numeralValue_hexU v w, length_hexU v w⟩, by decide⟩

/-- Settles O52: a bit vector of `4 * w` bits is below `16 ^ w`. -/
theorem operandNumeralsHaveTheirWidth : Obligations.OperandNumeralsHaveTheirWidth :=
  ⟨length_hexU_nibble, length_hexU_byte, length_hexU_addr, length_hexU_word⟩

/-- Settles O53, by evaluating the sixteen spellings. -/
theorem registerSpellings : Obligations.RegisterSpellings := by
  unfold Obligations.RegisterSpellings
  decide

end Sys2Proof.Machine
end

section
/-! REN (48_renderer.md): the characters and the lengths of texts and lines, where a line ends, and what `stripPrefix` leaves of it. -/

namespace Sys2Proof.Machine

/-! ## The characters of a text, through the grammar of R71 -/

/-- The characters of 48_renderer.md R171 but the tab and the line feed, which stand around a text and never in it. -/
def textAlphabet : Text := alphabet.take 47

theorem tab_not_mem_textAlphabet : '\t' ∉ textAlphabet := by decide
theorem lineFeed_not_mem_textAlphabet : '\n' ∉ textAlphabet := by decide
theorem carriageReturn_not_mem_textAlphabet : '\r' ∉ textAlphabet := by decide

theorem hexU_subset_textAlphabet (v w : Nat) : hexU v w ⊆ textAlphabet := List.Subset.trans (hexU_subset v w) (by decide)

theorem Operand.spell_subset (o : Operand) : o.spell ⊆ textAlphabet := by
  cases o with
  | reg x => exact List.cons_subset.2 ⟨by decide, hexU_subset_textAlphabet _ _⟩
  | immN _ | immKk _ | immNnn _ => exact List.append_subset.2 ⟨by decide, hexU_subset_textAlphabet _ _⟩
  | i | dt | st | k | f | b | memI | v0 => decide

theorem joinOperands_subset (os : List Operand) : joinOperands os ⊆ textAlphabet := by
  induction os using joinOperands.induct with
  | case1 => exact List.nil_subset _
  | case2 o => exact o.spell_subset
  | case3 o os hos ih =>
    rw [joinOperands.eq_3 o os hos]
    exact List.append_subset.2 ⟨List.append_subset.2 ⟨o.spell_subset, by decide⟩, ih⟩

/-- The mnemonics of 30_encoding.md R71. -/
def mnemonics : List String :=
  ["CLS", "RET", "SYS", "JP", "CALL", "SE", "SNE", "LD", "ADD", "OR", "AND", "XOR", "SUB", "SHR", "SUBN", "SHL", "RND", "DRW",
    "SKP", "SKNP"]

theorem mem_mnemonics {i : Instr} {m : String} (h : mnemonicOf i = some m) : m ∈ mnemonics := by
  unfold mnemonicOf at h
  split at h <;> cases h <;> simp [mnemonics]

theorem mnemonics_subset : ∀ m ∈ mnemonics, m.toList ⊆ textAlphabet := by decide

theorem grammarText_of_mnemonic {i : Instr} {m : String} (h : mnemonicOf i = some m) :
    grammarText i = m.toList ++ [' '] ++ joinOperands (operandsOf i) := by
  unfold grammarText
  rw [h]

theorem mnemonicOf_eq_none {i : Instr} (h : mnemonicOf i = none) : ∃ w, i = .invalid w := by
  cases i with
  | invalid w => exact ⟨w, rfl⟩
  | _ => nomatch h

theorem text_subset (i : Instr) : text i ⊆ textAlphabet := by
  cases h : mnemonicOf i with
  | none =>
    obtain ⟨w, rfl⟩ := mnemonicOf_eq_none h
    exact List.append_subset.2 ⟨by decide, hexU_subset_textAlphabet _ _⟩
  | some m =>
    rw [grammarSpellsTheTable i, grammarText_of_mnemonic h]
    exact List.append_subset.2 ⟨List.append_subset.2 ⟨mnemonics_subset m (mem_mnemonics h), by decide⟩, joinOperands_subset _⟩

theorem not_mem_text {c : Char} (hc : c ∉ textAlphabet) (i : Instr) : c ∉ text i := fun h => hc (text_subset i h)

theorem textAlphabet_subset : textAlphabet ⊆ alphabet := List.take_subset 47 alphabet

/-! ## What stands before a text -/

/-- All that `linePrefix` can answer: nothing in mode None, and else a numeral that a tab ends (48_renderer.md R169). -/
theorem linePrefix_eq_some {mode : OffsetMode} {off : Option Nat} {p : Text} (h : linePrefix mode off = some p) :
    (mode = .none ∧ p = []) ∨ (mode ≠ .none ∧ ∃ q, q ⊆ textAlphabet ∧ p = q ++ ['\t']) := by
  have numeral : ∀ o w, "0x".toList ++ hexU o w ⊆ textAlphabet := fun o w =>
    List.append_subset.2 ⟨by decide, hexU_subset_textAlphabet o w⟩
  cases mode with
  | none => exact .inl ⟨rfl, (Option.some.inj h).symm⟩
  | byteOffset | addressOffset =>
    cases off with
    | none => nomatch h
    | some o => exact .inr ⟨nofun, _, numeral o _, (Option.some.inj h).symm⟩

/-- All that `render` can answer (48_renderer.md R165). -/
theorem render_eq_some {i : Instr} {off : Option Nat} {mode : OffsetMode} {line : Text} :
    render i off mode = some line ↔ ∃ p, linePrefix mode off = some p ∧ line = p ++ text i ++ ['\n'] := by
  simp only [render, Option.map_eq_some_iff, eq_comm (b := line)]

theorem linePrefix_subset {mode : OffsetMode} {off : Option Nat} {p : Text} (h : linePrefix mode off = some p) :
    p ⊆ alphabet := by
  obtain ⟨-, rfl⟩ | ⟨-, q, hq, rfl⟩ := linePrefix_eq_some h
  · exact List.nil_subset _
  · exact List.append_subset.2 ⟨List.Subset.trans hq textAlphabet_subset, by decide⟩

theorem render_subset {i : Instr} {off : Option Nat} {mode : OffsetMode} {line : Text} (h : render i off mode = some line) :
    line ⊆ alphabet := by
  obtain ⟨p, hp, rfl⟩ := render_eq_some.1 h
  exact List.append_subset.2
    ⟨List.append_subset.2 ⟨linePrefix_subset hp, List.Subset.trans (text_subset i) textAlphabet_subset⟩, by decide⟩

/-! ## Stripping -/

theorem stripPrefix_of_notMem {line : Text} (h : '\t' ∉ line) : stripPrefix line = line := by
  simp [stripPrefix, h]

theorem stripPrefix_append_tab {q : Text} (h : '\t' ∉ q) (t : Text) : stripPrefix (q ++ ['\t'] ++ t) = t := by
  have hq : ∀ c ∈ q, (c != '\t') = true := fun c hc => bne_iff_ne.2 fun heq => h (heq ▸ hc)
  rw [stripPrefix, if_pos (by simp), List.append_assoc, List.dropWhile_append_of_pos hq]
  rfl

/-- A line stripped is its text and the line feed (48_renderer.md R173). -/
theorem stripPrefix_of_render {i : Instr} {off : Option Nat} {mode : OffsetMode} {line : Text}
    (h : render i off mode = some line) : stripPrefix line = text i ++ ['\n'] := by
  have htab := not_mem_text tab_not_mem_textAlphabet i
  obtain ⟨p, hp, rfl⟩ := render_eq_some.1 h
  obtain ⟨-, rfl⟩ | ⟨-, q, hq, rfl⟩ := linePrefix_eq_some hp
  · exact stripPrefix_of_notMem (by simp [htab])
  · rw [List.append_assoc, stripPrefix_append_tab fun hmem => tab_not_mem_textAlphabet (hq hmem)]

theorem stripPrefix_lineAt (mode : OffsetMode) (idx : Nat) (i : Instr) :
    stripPrefix (lineAt mode idx (text i)) = text i ++ ['\n'] :=
  stripPrefix_of_render (render_offset i mode idx)

/-! ## Where a line ends -/

theorem count_eq_zero {c : Char} (hc : c ∉ textAlphabet) {t : Text} (ht : t ⊆ textAlphabet) : t.count c = 0 :=
  List.count_eq_zero_of_not_mem fun h => hc (ht h)

theorem count_text {c : Char} (hc : c ∉ textAlphabet) (i : Instr) : (text i).count c = 0 := count_eq_zero hc (text_subset i)

/-- Whatever does not occur in texts occurs in a line as in what stands around the text. -/
theorem count_line {c : Char} (hc : c ∉ textAlphabet) {i : Instr} {off : Option Nat} {mode : OffsetMode} {line : Text}
    (h : render i off mode = some line) :
    line.count c = (if mode = .none then [] else ['\t']).count c + ['\n'].count c := by
  obtain ⟨p, hp, rfl⟩ := render_eq_some.1 h
  rw [List.count_append, List.count_append, count_text hc, Nat.add_zero]
  obtain ⟨rfl, rfl⟩ | ⟨hmode, q, hq, rfl⟩ := linePrefix_eq_some hp
  · rfl
  · rw [if_neg hmode, List.count_append, count_eq_zero hc hq, Nat.zero_add]

theorem count_lineFeed_of_render {i : Instr} {off : Option Nat} {mode : OffsetMode} {line : Text}
    (h : render i off mode = some line) : line.count '\n' = 1 := by
  rw [count_line lineFeed_not_mem_textAlphabet h]
  split <;> rfl

/-! ## Lengths -/

/-- The lengths of all texts (48_renderer.md R172). -/
theorem length_text (i : Instr) :
    4 ≤ (text i).length ∧ (i.tag ≠ 35 → (text i).length ≤ 15) ∧ (i.tag = 35 → (text i).length = 21) := by
  cases i <;> unfold text <;> simp [textVxVy, textVxKk, Instr.tag]

theorem length_text_drw (x y n : Nibble) : (text (.drw x y n)).length = 15 := by
  unfold text
  simp [textVxVy]

/-- An offset of 16 bits takes at most four digits. -/
theorem length_hexU_le {o w : Nat} (hw : w ≤ 4) (ho : o ≤ 0xFFFE) : w ≤ (hexU o w).length ∧ (hexU o w).length ≤ 4 := by
  have hlog : Nat.log 16 o < 4 := Nat.log_lt_of_lt_pow' (by decide) (by omega)
  rw [length_hexU]
  omega

/-- What stands before a text takes three characters more than its numeral (48_renderer.md R169). -/
theorem length_hexU_tab (o w : Nat) : ("0x".toList ++ hexU o w ++ ['\t']).length = (hexU o w).length + 3 := by
  rw [List.length_append, List.length_append, List.length_singleton, Nat.add_comm _ (hexU o w).length]
  rfl

theorem length_linePrefix_byteOffset {o : Nat} {p : Text} (ho : o ≤ 0xFFFE) (h : linePrefix .byteOffset (some o) = some p) :
    5 ≤ p.length ∧ p.length ≤ 7 := by
  cases h
  have := length_hexU_le (w := 2) (by decide) ho
  rw [length_hexU_tab]
  omega

theorem length_linePrefix_addressOffset {o : Nat} {p : Text} (ho : o ≤ 0xFFFE)
    (h : linePrefix .addressOffset (some o) = some p) : 6 ≤ p.length ∧ p.length ≤ 7 := by
  cases h
  have := length_hexU_le (w := 3) (by decide) ho
  rw [length_hexU_tab]
  omega

theorem length_linePrefix_le {mode : OffsetMode} {off : Option Nat} {p : Text} (ho : ∀ o, off = some o → o ≤ 0xFFFE)
    (h : linePrefix mode off = some p) : p.length ≤ 7 := by
  cases mode with
  | none => cases h; simp
  | byteOffset =>
    cases off with
    | none => nomatch h
    | some o => exact (length_linePrefix_byteOffset (ho o rfl) h).2
  | addressOffset =>
    cases off with
    | none => nomatch h
    | some o => exact (length_linePrefix_addressOffset (ho o rfl) h).2

/-! ## The statements -/

/-- Settles O54, by evaluating the examples. -/
theorem prefixTable : Obligations.PrefixTable :=
  ⟨fun _ => rfl, fun _ => rfl, fun _ => rfl, by decide⟩

/-- Settles O55: neither a text nor an offset's numeral holds a tab, a line feed or a carriage return. -/
theorem lineTermination : Obligations.LineTermination := by
  intro i off mode line h
  obtain ⟨p, hp, hline⟩ := render_eq_some.1 h
  refine ⟨p, hp, hline, count_lineFeed_of_render h, ?_, ?_, ?_, ?_, ?_⟩
  · rw [hline, List.getLast?_concat]
  · rw [count_line carriageReturn_not_mem_textAlphabet h]
    split <;> rfl
  · rw [count_line tab_not_mem_textAlphabet h]
    split <;> rfl
  all_goals obtain ⟨hmode, rfl⟩ | ⟨hmode, q, -, rfl⟩ := linePrefix_eq_some hp
  · exact fun h => absurd hmode h
  · exact fun _ => List.getLast?_concat
  · exact fun _ => rfl
  · exact fun h => absurd h hmode

/-- Words whose lines together hold every character of the alphabet: one for each capital letter that few texts hold, and
operands for the digits. -/
def alphabetWords : List Word :=
  [0x0345, 0x1679, 0x2ABC, 0x1DEF, 0x8128, 0x8003, 0x8005, 0x800E, 0xD000, 0xE000, 0xF007, 0xF065]

theorem alphabet_subset_lines :
    alphabet ⊆ alphabetWords.flatMap fun w => lineAt .byteOffset 0 (text (decode w)) := by decide

/-- Settles O56: every part of a line stays inside the alphabet, and the lines of `alphabetWords` use all of it. -/
theorem alphabetOfLines : Obligations.AlphabetOfLines := by
  refine ⟨by decide, by decide, fun w mode idx line h c hc => render_subset h hc, fun c hc => ?_⟩
  obtain ⟨w, -, hw⟩ := List.mem_flatMap.1 (alphabet_subset_lines hc)
  exact ⟨w, .byteOffset, _, render_offset (decode w) .byteOffset 0, hw⟩

/-- Settles O57: the bounds of a line are those of its parts, and the line feed. -/
theorem lengthsOfLines : Obligations.LengthsOfLines := by
  refine ⟨fun w => ?_, rfl, rfl, length_text_drw, fun _ _ => length_linePrefix_byteOffset,
    fun _ _ _ => length_linePrefix_addressOffset, fun w mode idx line ho h => ?_⟩
  · obtain ⟨hmin, hvalid, hinvalid⟩ := length_text (decode w)
    refine ⟨hmin, ?_, hvalid, hinvalid⟩
    by_cases htag : (decode w).tag = 35 <;> omega
  · obtain ⟨p, hp, rfl⟩ := render_eq_some.1 h
    have hlen := length_linePrefix_le ho hp
    obtain ⟨hmin, hvalid, hinvalid⟩ := length_text (decode w)
    rw [List.length_append, List.length_append, List.length_singleton]
    by_cases htag : (decode w).tag = 35 <;> omega

/-- Settles O58. -/
theorem textIgnoresModeAndOffset : Obligations.TextIgnoresModeAndOffset :=
  ⟨not_mem_text tab_not_mem_textAlphabet, fun _ _ _ _ => stripPrefix_of_render, fun _ _ => rfl⟩

end Sys2Proof.Machine
end

section
/-! Texts are injective (48_renderer.md R174): what a text says besides its numerals tells the case of the record, and the numerals tell
its operands. -/

namespace Sys2Proof.Machine

/-! ## The numerals -/

/-- A register is one digit (48_renderer.md R167). -/
theorem hexU_nibble (x : Nibble) : hexU x.toNat 1 = [hexDigit x.toNat] := by
  rw [hexU, hexDigits_of_lt x.isLt]
  rfl

theorem hexDigit_toNat_inj {x y : Nibble} : hexDigit x.toNat = hexDigit y.toNat ↔ x = y := by
  rw [← hexU_toNat_inj (w := 1), hexU_nibble, hexU_nibble, List.singleton_inj]

/-! ## The case of a record -/

/-- A character that no numeral holds. -/
def notDigit (c : Char) : Bool := !"0123456789ABCDEF".toList.contains c

theorem filter_hexU (v w : Nat) : (hexU v w).filter notDigit = [] := by
  refine List.filter_eq_nil_iff.2 fun c hc => ?_
  rw [notDigit, List.contains_iff_mem.2 (hexU_subset v w hc)]
  exact Bool.noConfusion

/-- What a text says besides its numerals: its first four characters, which no operand reaches, and all that are no digit. -/
def skeleton (t : Text) : Text × Text := (t.take 4, t.filter notDigit)

/-- The skeletons of the 36 cases, in the order of their tags. -/
def skeletons : List (String × String) := [
  ("CLS ", "LS "), ("RET ", "RT "), ("SYS ", "SYS x"), ("JP 0", "JP x"), ("CALL", "LL x"), ("SE V", "S V, x"), ("SNE ", "SN V, x"),
  ("SE V", "S V, V"), ("LD V", "L V, x"), ("ADD ", " V, x"), ("LD V", "L V, V"), ("OR V", "OR V, V"), ("AND ", "N V, V"),
  ("XOR ", "XOR V, V"), ("ADD ", " V, V"), ("SUB ", "SU V, V"), ("SHR ", "SHR V"), ("SUBN", "SUN V, V"), ("SHL ", "SHL V"),
  ("SNE ", "SN V, V"), ("LD I", "L I, x"), ("JP V", "JP V, x"), ("RND ", "RN V, x"), ("DRW ", "RW V, V, x"), ("SKP ", "SKP V"),
  ("SKNP", "SKNP V"), ("LD V", "L V, T"), ("LD V", "L V, K"), ("LD D", "L T, V"), ("LD S", "L ST, V"), ("ADD ", " I, V"),
  ("LD F", "L , V"), ("LD B", "L , V"), ("LD [", "L [I], V"), ("LD V", "L V, [I]"), ("Inva", "Invalid Opcode x")]

theorem skeletons_nodup : skeletons.Nodup := by decide

theorem skeleton_text (i : Instr) :
    (skeletons[i.tag]?).map (Prod.map String.toList String.toList) = some (skeleton (text i)) := by
  cases i <;> unfold text textVxVy textVxKk <;> simp only [skeleton, List.filter_append, filter_hexU, List.append_nil] <;> rfl

/-- Records with the same text have the same tag. -/
theorem tag_eq_of_text_eq {i j : Instr} (h : text i = text j) : i.tag = j.tag := by
  have hinj : Function.Injective String.toList := fun _ _ => String.toList_inj.1
  have hskeleton : skeletons[i.tag]? = skeletons[j.tag]? :=
    Option.map_injective (hinj.prodMap hinj) (by rw [skeleton_text, skeleton_text, h])
  exact (List.getElem?_inj (Nat.lt_succ_of_le i.tag_le) skeletons_nodup).1 hskeleton

/-! ## The operands of a record -/

/-- Of one case the numerals stand at the same places, and each is that of one operand only. -/
theorem eq_of_tag_eq_of_text_eq {i j : Instr} (htag : i.tag = j.tag) (h : text i = text j) : i = j := by
  -- the tags leave 36 of the pairs of cases
  cases i <;> cases j <;> cases htag
  case cls.cls | ret.ret => rfl
  all_goals
    unfold text at h
    simpa [textVxVy, textVxKk, hexU_nibble, hexDigit_toNat_inj, hexU_toNat_inj] using h

/-- Settles O59: the text tells the case, and within the case the operands. -/
theorem textIsInjective : Obligations.TextIsInjective :=
  fun _ _ h => eq_of_tag_eq_of_text_eq (tag_eq_of_text_eq h) h

end Sys2Proof.Machine
end

section
/-! The pass as a function (49_stream_driver.md R190): the windows of a buffer, the entries `disassemble` gives them, and the statements
about its answers. -/

namespace Sys2Proof.Machine

/-! ## The windows of a buffer -/

theorem length_windows (bs : List Byte) : (windows bs).length = bs.length / 2 := by
  induction bs using windows.induct with
  | case1 b0 b1 rest ih =>
    rw [windows, List.length_cons, ih, List.length_cons, List.length_cons]
    omega
  | case2 | case3 => simp [windows]

/-- Window `k` is the word of the bytes at `2*k` and `2*k + 1` (20_memory.md R42, R43). -/
theorem getElem?_windows (bs : List Byte) (k : Nat) :
    (windows bs)[k]? = bs[2 * k]?.bind fun b0 => bs[2 * k + 1]?.map (wordOf b0) := by
  induction bs using windows.induct generalizing k with
  | case1 b0 b1 rest ih =>
    cases k with
    | zero => rfl
    | succ k => exact ih k
  | case2 b => cases k <;> simp [windows]
  | case3 => simp [windows]

theorem windows_append {a : List Byte} (h : a.length % 2 = 0) (b : List Byte) : windows (a ++ b) = windows a ++ windows b := by
  induction a using windows.induct with
  | case1 b0 b1 rest ih =>
    rw [List.length_cons, List.length_cons] at h
    exact congrArg (wordOf b0 b1 :: ·) (ih (by omega))
  | case2 => simp at h
  | case3 => rfl

/-! ## The entries -/

/-- The triple of the window at `idx` (10_state.md R29). -/
def entryAt (mode : OffsetMode) (idx : Nat) (w : Word) : OutEntry :=
  ⟨offsetAt mode idx, decode w, lineAt mode idx (text (decode w))⟩

/-- In mode None an entry does not show where its window stands. -/
theorem entryAt_none (idx : Nat) (w : Word) : entryAt .none idx w = entryAt .none 0 w := rfl

/-- OUT at the end of a pass: entry `k` is the triple of window `k`, which stands at byte index `2*k`. -/
def passOut (mode : OffsetMode) (bytes : List Byte) : List OutEntry :=
  (windows bytes).mapIdx fun k w => entryAt mode (2 * k) w

theorem getElem?_passOut (mode : OffsetMode) (bytes : List Byte) (k : Nat) :
    (passOut mode bytes)[k]? = (windows bytes)[k]?.map (entryAt mode (2 * k)) := List.getElem?_mapIdx

theorem length_passOut (mode : OffsetMode) (bytes : List Byte) : (passOut mode bytes).length = bytes.length / 2 := by
  rw [passOut, List.length_mapIdx, length_windows]

/-- What an entry says besides its place is said of the words one by one. -/
theorem map_passOut {α : Type} (f : OutEntry → α) (g : Word → α) (mode : OffsetMode) (h : ∀ idx w, f (entryAt mode idx w) = g w)
    (bytes : List Byte) : (passOut mode bytes).map f = (windows bytes).map g := by
  refine List.ext_getElem? fun k => ?_
  rw [List.getElem?_map, getElem?_passOut, List.getElem?_map, Option.map_map]
  exact congrArg (Option.map · _) (funext (h (2 * k)))

theorem passOut_none (bytes : List Byte) : passOut .none bytes = (windows bytes).map (entryAt .none 0) := by
  rw [← map_passOut id (entryAt .none 0) .none entryAt_none, List.map_id]

theorem entriesFrom_eq (mode : OffsetMode) (idx : Nat) (ws : List Word) :
    entriesFrom mode idx ws = some (ws.mapIdx fun k w => entryAt mode (idx + 2 * k) w) := by
  induction ws generalizing idx with
  | nil => rfl
  | cons w ws ih =>
    have hplace : ∀ k, idx + 2 + 2 * k = idx + 2 * (k + 1) := fun k => by omega
    rw [entriesFrom, render_offset, ih, List.mapIdx_cons]
    simp only [hplace, offset_eq_offsetAt]
    rfl

/-- The admitted domain is a matter of the windows: an odd trailing byte does not count (10_state.md R27). -/
theorem admitted_eq_of_half_eq {m n : Nat} (h : m / 2 = n / 2) (mode : OffsetMode) : admitted mode m = admitted mode n := by
  rw [admitted, admitted, evenLen, evenLen, h]

/-- The whole of `disassemble`. -/
theorem disassemble_eq (bytes : List Byte) (mode : OffsetMode) : disassemble bytes mode =
    if admitted mode bytes.length then some (passOut mode bytes, startDiag bytes.length) else none := by
  simp only [disassemble, entriesFrom_eq, Nat.zero_add]
  rfl

theorem disassemble_of_admitted {bytes : List Byte} {mode : OffsetMode} (h : LenAdmitted mode bytes.length) :
    disassemble bytes mode = some (passOut mode bytes, startDiag bytes.length) := by
  rw [disassemble_eq, if_pos ((admitted_iff _ _).2 h)]

theorem eq_of_disassemble_eq_some {bytes : List Byte} {mode : OffsetMode} {out : List OutEntry} {diag : List Diag}
    (h : disassemble bytes mode = some (out, diag)) : out = passOut mode bytes ∧ diag = startDiag bytes.length := by
  rw [disassemble_eq] at h
  split at h
  · cases h
    exact ⟨rfl, rfl⟩
  · cases h

/-- Every mode admits an input without a whole word. -/
theorem lenAdmitted_of_le_one {n : Nat} (h : n ≤ 1) (mode : OffsetMode) : LenAdmitted mode n := by
  cases mode <;> simp only [LenAdmitted] <;> omega

/-! ## Lines and diagnostics, counted -/

/-- As many line feeds as entries stand in the lines (49_stream_driver.md R196). -/
theorem count_lineFeed_passOut (mode : OffsetMode) (bytes : List Byte) :
    (concatenated (passOut mode bytes)).count '\n' = bytes.length / 2 := by
  have hone : ∀ idx w, (entryAt mode idx w).line.count '\n' = 1 := fun idx w =>
    count_lineFeed_of_render (render_offset (decode w) mode idx)
  rw [concatenated, List.count_flatten, List.map_map, map_passOut _ (fun _ => 1) mode hone]
  simp [length_windows]

theorem count_malformedLength_startDiag (n : Nat) : (startDiag n).count .malformedLength = n % 2 := by
  rw [startDiag_eq]
  rcases Nat.mod_two_eq_zero_or_one n with h | h <;> simp [h]

theorem byteCount_mem_startDiag {m n : Nat} : .byteCount m ∈ startDiag n ↔ m = n := by
  rw [startDiag_eq]
  split <;> simp

theorem count_byteCount_startDiag (n : Nat) : (startDiag n).count (.byteCount n) = 1 := by
  rw [startDiag_eq]
  split <;> simp

/-! ## The statements -/

/-- Settles O30: START writes `startDiag`, a step leaves DIAG alone, and an odd trailing byte adds no window. -/
theorem oddLengthWarning : Obligations.OddLengthWarning := by
  refine ⟨fun s t ht => ?_, fun s t ht => ?_, fun bytes b mode heven => ?_⟩
  · obtain ⟨-, -, -, rfl⟩ := start_eq_next.1 ht
    refine ⟨?_, count_byteCount_startDiag s.len, fun n hn h => hn (byteCount_mem_startDiag.1 h)⟩
    rw [started_diag, count_malformedLength_startDiag]
    split <;> omega
  · obtain ⟨-, -, -, b0, b1, -, -, rfl⟩ := step_eq_next.1 ht
    exact afterWord_diag ..
  · have hout : passOut mode (bytes ++ [b]) = passOut mode bytes := by
      rw [passOut, windows_append heven, windows, List.append_nil, passOut]
    have hhalf : (bytes ++ [b]).length / 2 = bytes.length / 2 := by
      rw [List.length_append, List.length_singleton]
      omega
    rw [disassemble_eq, disassemble_eq, hout, admitted_eq_of_half_eq hhalf]
    split <;> rfl

/-- Settles O46: there is one entry for each window, and one line feed in each line. -/
theorem countsOfAPass : Obligations.CountsOfAPass := by
  refine ⟨fun bytes mode out diag h => ?_, fun mode => disassemble_of_admitted (lenAdmitted_of_le_one (Nat.zero_le 1) mode),
    fun mode b => disassemble_of_admitted (lenAdmitted_of_le_one (Nat.le_refl 1) mode), rfl⟩
  obtain ⟨rfl, rfl⟩ := eq_of_disassemble_eq_some h
  exact ⟨length_passOut mode bytes, count_lineFeed_passOut mode bytes, count_malformedLength_startDiag bytes.length⟩

/-- Settles O47: in mode None an entry is a function of its word, and an even length keeps the windows apart. -/
theorem outOfAConcatenation : Obligations.OutOfAConcatenation := by
  intro a b ha hb
  have heven : ∀ n, n % 2 = 0 → startDiag n = [.byteCount n] := fun n hn => by rw [startDiag_eq, hn]; rfl
  refine ⟨passOut .none a, passOut .none b, ?_, ?_, ?_⟩
  · rw [disassemble_of_admitted (mode := .none) trivial, heven _ ha]
  · rw [disassemble_of_admitted (mode := .none) trivial, heven _ hb]
  · rw [disassemble_of_admitted (mode := .none) trivial, List.length_append, heven _ (by omega), passOut_none, windows_append ha,
      List.map_append, passOut_none, passOut_none]

/-- Settles O48: window `k` reads the bytes at `2*k` and `2*k + 1` only. -/
theorem oneByteReachesOneRecord : Obligations.OneByteReachesOneRecord := by
  intro bytes mode j v out out' diag diag' h h'
  obtain ⟨rfl, rfl⟩ := eq_of_disassemble_eq_some h
  obtain ⟨rfl, rfl⟩ := eq_of_disassemble_eq_some h'
  refine ⟨by rw [List.length_set], fun k hk => ?_⟩
  rw [getElem?_passOut, getElem?_passOut, getElem?_windows, getElem?_windows, List.getElem?_set_ne (by omega),
    List.getElem?_set_ne (by omega)]

/-- Settles O49: records and stripped lines are functions of the words, and the words are the same in every mode. -/
theorem recordsAreTheSameInEveryMode : Obligations.RecordsAreTheSameInEveryMode := by
  intro bytes m m' out out' diag diag' h h'
  obtain ⟨rfl, rfl⟩ := eq_of_disassemble_eq_some h
  obtain ⟨rfl, rfl⟩ := eq_of_disassemble_eq_some h'
  have hinstr : ∀ mode, (passOut mode bytes).map (·.instr) = (windows bytes).map decode := fun mode =>
    map_passOut _ decode mode (fun _ _ => rfl) bytes
  have hstripped : ∀ mode, (passOut mode bytes).map (fun e => stripPrefix e.line) =
      (windows bytes).map fun w => text (decode w) ++ ['\n'] := fun mode =>
    map_passOut _ _ mode (fun idx w => stripPrefix_lineAt mode idx (decode w)) bytes
  have htext : (passOut m bytes).map (fun e => text e.instr ++ ['\n']) =
      (windows bytes).map fun w => text (decode w) ++ ['\n'] := map_passOut _ _ m (fun _ _ => rfl) bytes
  exact ⟨rfl, (hinstr m).trans (hinstr m').symm, (hstripped m).trans (hstripped m').symm, (hstripped m).trans htext.symm⟩

end Sys2Proof.Machine
end

section
/-! Runs: what any number of steps changes and leaves, the host's preparation of a pass, how far a pass runs, and the statements that tie
a pass to `disassemble` (49_stream_driver.md R190, R194, R195, R200). -/

namespace Sys2Proof.Machine

open Host (Core.run)

/-! ## Runs of steps -/

theorem run_succ_of_step {s u : State} (h : step s = .next u) (k : Nat) : Core.run core (k + 1) s = Core.run core k u := by
  simp only [Core.run]
  rw [show core.step s = .next u from h]

theorem run_succ_eq_next {k : Nat} {s t : State} :
    Core.run core (k + 1) s = .next t ↔ ∃ u, step s = .next u ∧ Core.run core k u = .next t := by
  constructor
  · intro h
    simp only [Core.run] at h
    split at h
    next u hu => exact ⟨u, hu, h⟩
    all_goals cases h
  · rintro ⟨u, hu, h⟩
    rw [run_succ_of_step hu, h]

theorem run_one (s : State) : Core.run core 1 s = step s := by
  simp only [Core.run]
  split
  all_goals next h => exact h.symm

/-- The last step of a run stands alone. -/
theorem run_succ_of_run {k : Nat} {s t : State} (h : Core.run core k s = .next t) : Core.run core (k + 1) s = step t := by
  induction k generalizing s with
  | zero => cases h; exact run_one _
  | succ k ih =>
    obtain ⟨u, hu, h⟩ := run_succ_eq_next.1 h
    rw [run_succ_of_step hu, ih h]

/-- A run moves `idx` by 2 a step and keeps the host's parameters (10_state.md R22, 49_stream_driver.md R200). -/
theorem run_frame {k : Nat} {s t : State} (h : Core.run core k s = .next t) :
    t.idx = s.idx + 2 * k ∧ t.ibuf = s.ibuf ∧ t.len = s.len ∧ t.mode = s.mode := by
  induction k generalizing s with
  | zero => cases h; exact ⟨rfl, rfl, rfl, rfl⟩
  | succ k ih =>
    obtain ⟨u, hu, h⟩ := run_succ_eq_next.1 h
    obtain ⟨hidx, hibuf, hlen, hmode⟩ := ih h
    obtain ⟨-, -, -, b0, b1, -, -, rfl⟩ := step_eq_next.1 hu
    refine ⟨?_, hibuf, hlen, hmode⟩
    rw [hidx, afterWord_idx]
    omega

/-- A run appends one entry a step, and their offsets follow `idx` (49_stream_driver.md R194). -/
theorem run_offsets {k : Nat} {s t : State} (h : Core.run core k s = .next t) :
    ∃ es, t.out = s.out ++ es ∧ es.map (·.offset) = (List.range k).map fun j => offsetAt s.mode (s.idx + 2 * j) := by
  induction k generalizing s with
  | zero => cases h; exact ⟨[], (List.append_nil _).symm, rfl⟩
  | succ k ih =>
    obtain ⟨u, hu, h⟩ := run_succ_eq_next.1 h
    obtain ⟨es, hout, hoffsets⟩ := ih h
    obtain ⟨-, -, -, b0, b1, -, -, rfl⟩ := step_eq_next.1 hu
    have hplace : ∀ j, s.idx + 2 + 2 * j = s.idx + 2 * (j + 1) := fun j => by omega
    refine ⟨_, hout.trans (List.append_assoc ..), ?_⟩
    simp [hoffsets, List.range_succ_eq_map, hplace]

/-- Entry `j` of a run, by the index it has in OUT. -/
theorem run_offset {k : Nat} {s t : State} (h : Core.run core k s = .next t) :
    t.out.length = s.out.length + k ∧
      ∀ j, j < k → t.out[s.out.length + j]?.map (·.offset) = some (offsetAt s.mode (s.idx + 2 * j)) := by
  obtain ⟨es, hout, hoffsets⟩ := run_offsets h
  have hlength : es.length = k := by simpa using congrArg List.length hoffsets
  refine ⟨by rw [hout, List.length_append, hlength], fun j hj => ?_⟩
  rw [hout, List.getElem?_append_right (Nat.le_add_right ..), Nat.add_sub_cancel_left, ← List.getElem?_map, hoffsets,
    List.getElem?_map, List.getElem?_range hj]
  rfl

/-! ## How far a pass runs -/

/-- Up to the end of a pass a run is never refused (49_stream_driver.md R193, R195). -/
theorem PassInv.exists_run {s : State} (h : PassInv s) {k : Nat} (hk : s.idx + 2 * k ≤ 2 * (s.len / 2)) :
    ∃ t : State, Core.run core k s = .next t ∧ PassInv t := by
  induction k generalizing s with
  | zero => exact ⟨s, rfl, h⟩
  | succ k ih =>
    obtain ⟨u, hu⟩ := h.exists_step (h.running.2 (by omega))
    have hidx := step_idx hu
    obtain ⟨-, -, hlen, -⟩ := run_frame (k := 1) (run_succ_eq_next.2 ⟨u, hu, rfl⟩)
    obtain ⟨t, ht, hinv⟩ := ih (step_keeps_passInv h hu) (by omega)
    exact ⟨t, by rw [run_succ_of_step hu, ht], hinv⟩

/-- OUT at the end of a pass is that of `disassemble`. -/
theorem PassInv.out_eq_passOut {s : State} (h : PassInv s) {bytes : List Byte} (hd : s.idx = 2 * (bytes.length / 2))
    (hm : s.ibuf = Memory.ofBytes bytes) : s.out = passOut s.mode bytes := by
  have hlength : s.out.length = (passOut s.mode bytes).length := by
    have := h.index
    rw [length_passOut]
    omega
  refine List.ext_getElem? fun k => ?_
  cases he : s.out[k]? with
  | none => rw [eq_comm, List.getElem?_eq_none_iff, ← hlength, ← List.getElem?_eq_none_iff, he]
  | some e =>
    obtain ⟨b0, b1, h0, h1, rfl⟩ := h.entries k e he
    rw [hm, Memory.read_ofBytes] at h0 h1
    rw [getElem?_passOut, getElem?_windows, h0, h1]
    rfl

/-! ## The host's preparation -/

/-- The state in which the host gives START (70_reset_and_hazards.md R233). -/
def prepared (bytes : List Byte) (mode : OffsetMode) (s : State) : State :=
  { s with ibuf := Memory.ofBytes bytes, len := bytes.length, mode := mode }

theorem prepared_present (bytes : List Byte) (mode : OffsetMode) (s : State) :
    ∀ a, a < (prepared bytes mode s).len → (prepared bytes mode s).ibuf.read a ≠ none := by
  intro a ha
  rw [prepared, Memory.read_ofBytes, Ne, List.getElem?_eq_none_iff]
  exact Nat.not_le.2 ha

/-- All that the preparation can do: outside Running, place the input and give START. -/
theorem hostMoves_beginPass {bytes : List Byte} {mode : OffsetMode} {s : State} (hp : s.phase ≠ .running) :
    hostMoves (beginPass bytes mode) s = (prepared bytes mode s).start := by
  simp only [beginPass, hostMoves, hostMove, State.setUp, modeOfBits_modeBits, if_neg hp]
  rw [← prepared]
  cases (prepared bytes mode s).start <;> rfl

theorem hostMoves_beginPass_eq_next {bytes : List Byte} {mode : OffsetMode} {s t : State} :
    hostMoves (beginPass bytes mode) s = .next t ↔
      s.phase ≠ .running ∧ LenAdmitted mode bytes.length ∧ t = (prepared bytes mode s).started := by
  by_cases hp : s.phase = .running
  · simp [beginPass, hostMoves, hostMove, State.setUp, hp]
  · rw [hostMoves_beginPass hp, start_eq_next]
    exact ⟨fun ⟨_, hd, _, ht⟩ => ⟨hp, hd, ht⟩, fun ⟨_, hd, ht⟩ => ⟨hp, hd, prepared_present bytes mode s, ht⟩⟩

/-- A prepared pass runs for any number of its windows, and keeps its invariant and its input. -/
theorem exists_run_of_beginPass {bytes : List Byte} {mode : OffsetMode} {s s0 : State}
    (h : hostMoves (beginPass bytes mode) s = .next s0) {k : Nat} (hk : k ≤ bytes.length / 2) :
    ∃ t : State, Core.run core k s0 = .next t ∧ PassInv t ∧ t.idx = 2 * k ∧ t.ibuf = Memory.ofBytes bytes ∧ t.len = bytes.length ∧
      t.mode = mode := by
  obtain ⟨-, hd, rfl⟩ := hostMoves_beginPass_eq_next.1 h
  have hinv : PassInv (prepared bytes mode s).started :=
    passInv_started (Memory.ofBytes_wf bytes) hd (prepared_present bytes mode s)
  have hbound : 0 + 2 * k ≤ 2 * (bytes.length / 2) := by omega
  obtain ⟨t, ht, hinv⟩ := hinv.exists_run hbound
  obtain ⟨hidx, hibuf, hlen, hmode⟩ := run_frame ht
  exact ⟨t, ht, hinv, hidx.trans (Nat.zero_add _), hibuf, hlen, hmode⟩

/-! ## The statements -/

/-- Settles O25: `idx` moves by 2 whatever the word, and after START it counts from 0. -/
theorem offsetsAreArithmetic : Obligations.OffsetsAreArithmetic := by
  refine ⟨fun k s t h => ?_, fun k s s0 t hs h => ?_⟩
  · obtain ⟨hidx, -⟩ := run_frame h
    obtain ⟨hlength, hoffset⟩ := run_offset h
    refine ⟨hidx, hlength, fun j hj => (hoffset j hj).trans ?_⟩
    cases s.mode <;> simp [offsetAt]
  · obtain ⟨-, -, -, rfl⟩ := start_eq_next.1 hs
    obtain ⟨hlength, hoffset⟩ := run_offset h
    refine ⟨hlength.trans (Nat.zero_add k), fun j hj => ?_⟩
    rw [← Nat.zero_add j]
    refine (hoffset j hj).trans ?_
    rw [started_mode, started_idx]
    cases s.mode <;> simp [offsetAt]

/-- Settles O44: the invariant of a pass fixes every entry at its end, and they are those of `disassemble`. -/
theorem passComputesDisassemble : Obligations.PassComputesDisassemble := by
  intro bytes mode s hp hd
  have hbegin := hostMoves_beginPass_eq_next.2 ⟨hp, hd, rfl⟩
  obtain ⟨t, ht, hinv, hidx, hibuf, hlen, rfl⟩ := exists_run_of_beginPass hbegin (Nat.le_refl _)
  have hdone : t.phase = .done := hinv.done.2 (by rw [hidx, hlen])
  have hresult : t.result? = some (passOut t.mode bytes, startDiag bytes.length) := by
    rw [State.result?, if_pos hdone, hinv.out_eq_passOut hidx hibuf, hinv.diagnostics, hlen, startDiag_eq]
  refine ⟨_, t, passOut t.mode bytes, hbegin, ht, hdone, ?_, ?_, length_passOut .., fun k b0 b1 h0 h1 => ?_⟩
  · rw [hresult, startDiag_eq, List.singleton_append]
  · rw [hresult, disassemble_of_admitted hd]
  · rw [getElem?_passOut, getElem?_windows, h0, h1, ← wordOf_toNat, BitVec.ofNat_toNat, BitVec.setWidth_eq]
    rfl

/-- Settles O45: with the invariant, `idx` alone tells the phase. -/
theorem passTakesExactlyHalfTheBytes : Obligations.PassTakesExactlyHalfTheBytes := by
  intro bytes mode s s0 h
  obtain ⟨t, ht, hinv, hidx, -, hlen, -⟩ := exists_run_of_beginPass h (Nat.le_refl _)
  have hdone : t.phase = .done := hinv.done.2 (by rw [hidx, hlen])
  refine ⟨fun k hk => ?_, ⟨t, ht, hdone, hidx⟩, ?_⟩
  · obtain ⟨u, hu, hinv, hidx, -, hlen, -⟩ := exists_run_of_beginPass h (Nat.le_of_lt hk)
    exact ⟨u, hu, hinv.running.2 (by omega), hidx⟩
  · exact (run_succ_of_run ht).trans (step_of_not_running (hdone ▸ nofun))

/-- Settles O50: START reads only IBUF, LEN and MODE, which the preparation writes and no step changes. -/
theorem passIsRestartable : Obligations.PassIsRestartable := by
  have hstart : ∀ s s' : State, s.phase ≠ .running → s'.phase ≠ .running → s.ibuf = s'.ibuf → s.len = s'.len →
      s.mode = s'.mode → s.start = s'.start := by
    intro s s' hp hp' hibuf hlen hmode
    simp only [State.start, if_neg hp, if_neg hp', started_eq, hibuf, hlen, hmode]
  refine ⟨hstart, fun bytes mode s s' hp hp' => ?_, fun k s t h => (run_frame h).2⟩
  rw [hostMoves_beginPass hp, hostMoves_beginPass hp']
  exact hstart _ _ hp hp' rfl rfl rfl

end Sys2Proof.Machine
end
